-- ==== Sys2Proof/Word.lean ====
section
/-! DEFINITION. The two word types of the block: the octet (uint8) and the uint16 (00_scope.md R8). There is no other width. -/

namespace Sys2Proof

/-- An octet, `uint8` (R8). -/
abbrev Byte := BitVec 8

/-- A `uint16` (R8). -/
abbrev Half := BitVec 16

end Sys2Proof
end

