-- ==== Sys2Proof/Syntax.lean ====
section
/-! DEFINITION. The commands of the block. `Instr` has one constructor per row of spec/opcode_table.json with its typed operands
(30_encoding.md R71, R73). `Command` is what an agent issues: a command code and a list of operand values (R70). `Opcode` names
the rows of the table. -/

namespace Sys2Proof

/-- A command with its typed operands (R71, R73): the argument types exclude an operand of the wrong type. -/
inductive Instr where
  | crc8 (data : List Byte) (n : Nat)
  | crc16 (data : List Byte) (n : Nat)
  | crc8Init
  | crc8Byte (b : Byte)
  | crc8Read
  | crc16Init
  | crc16Byte (b : Byte)
  | crc16Read
  | build (payload : List Byte) (seq c0 c1 : Byte)
  | feed (buf : List Byte)
  | rxAppend (chunk : List Byte)
  | rxParse
  | rxClear
  | decodeCoords (payload : List Byte)
  | encodeVuln (r1 r2 r3 r4 r7 : Bool)
  | decodeVuln (v : Byte)
  | status
deriving DecidableEq, Repr

/-- The names of the rows of the opcode table (R71). -/
inductive Opcode where
  | crc8 | crc16 | crc8Init | crc8Byte | crc8Read | crc16Init | crc16Byte | crc16Read
  | build
  | feed | rxAppend | rxParse | rxClear
  | decodeCoords | encodeVuln | decodeVuln
  | status
deriving DecidableEq, Repr

/-- The units a command code's `U` field names (R72). -/
inductive FcbUnit where
  | checksumEngine | frameBuilder | frameParser | payloadDecoder | statusUnit
deriving DecidableEq, Repr

/-- The operand types of R73. -/
inductive OperandType where
  | bytes | nat | uint8 | bool
deriving DecidableEq, Repr

/-- An operand value of one of the types of R73. -/
inductive Operand where
  | bytes (data : List Byte)
  | nat (n : Nat)
  | uint8 (b : Byte)
  | bool (p : Bool)
deriving DecidableEq, Repr

/-- What an agent issues: the pair `(op, operands)` of R70. -/
structure Command where
  op       : Byte
  operands : List Operand
deriving DecidableEq, Repr

/-- The agents that issue operations (20_memory.md R62). -/
inductive Agent where
  | host
  | transport
deriving DecidableEq, Repr

/-- What an agent does to the block: issue a command (R70), or reset it, which is the host's act (70_reset_and_hazards.md R240). -/
inductive Event where
  | command (agent : Agent) (c : Command)
  | reset
deriving DecidableEq, Repr

end Sys2Proof
end

