-- ==== Sys2Proof/Decode.lean ====
section
/-! DEFINITION. The command code map of 30_encoding.md R71 and R72, the decoder from issued commands to `Instr`, total and
rejecting by name (R73, R82), and the encoder from the same map. The code is the only encoded field (R84): operands are typed
values that travel beside it (R73). -/

namespace Sys2Proof

/-- Why an issued pair is no command of the table. -/
inductive DecodeError where
  /-- The code is not listed in R71 (R82). -/
  | illegalOp
  /-- The code is listed and the operands are not the typed list it selects (R73): not a command. -/
  | wrongOperands
deriving DecidableEq, Repr

/-- The rows of the opcode table in its order (R71). -/
def Opcode.all : List Opcode :=
  [.crc8, .crc16, .crc8Init, .crc8Byte, .crc8Read, .crc16Init, .crc16Byte, .crc16Read,
   .build, .feed, .rxAppend, .rxParse, .rxClear, .decodeCoords, .encodeVuln, .decodeVuln, .status]

/-- The command code of each row (R71). -/
def Opcode.code : Opcode → Byte
  | .crc8         => 0x01
  | .crc16        => 0x02
  | .crc8Init     => 0x03
  | .crc8Byte     => 0x04
  | .crc8Read     => 0x05
  | .crc16Init    => 0x06
  | .crc16Byte    => 0x07
  | .crc16Read    => 0x08
  | .build        => 0x10
  | .feed         => 0x20
  | .rxAppend     => 0x21
  | .rxParse      => 0x22
  | .rxClear      => 0x23
  | .decodeCoords => 0x30
  | .encodeVuln   => 0x31
  | .decodeVuln   => 0x32
  | .status       => 0x40

/-- The operand list each code selects (R71, R73). -/
def Opcode.signature : Opcode → List OperandType
  | .crc8         => [.bytes, .nat]
  | .crc16        => [.bytes, .nat]
  | .crc8Init     => []
  | .crc8Byte     => [.uint8]
  | .crc8Read     => []
  | .crc16Init    => []
  | .crc16Byte    => [.uint8]
  | .crc16Read    => []
  | .build        => [.bytes, .uint8, .uint8, .uint8]
  | .feed         => [.bytes]
  | .rxAppend     => [.bytes]
  | .rxParse      => []
  | .rxClear      => []
  | .decodeCoords => [.bytes]
  | .encodeVuln   => [.bool, .bool, .bool, .bool, .bool]
  | .decodeVuln   => [.uint8]
  | .status       => []

/-- The unit field `U = op[7:4]` (R71). -/
def unitField (op : Byte) : BitVec 4 := op.extractLsb' 4 4

/-- The function field `F = op[3:0]` (R71). -/
def functionField (op : Byte) : BitVec 4 := op.extractLsb' 0 4

/-- The unit a `U` value names; `U = 5..15` is reserved (R72). -/
def unitOf (u : BitVec 4) : Option FcbUnit :=
  match u.toNat with
  | 0 => some .checksumEngine
  | 1 => some .frameBuilder
  | 2 => some .frameParser
  | 3 => some .payloadDecoder
  | 4 => some .statusUnit
  | _ => none

/-- The row a command code names, if any (R71). -/
def lookupOpcode (op : Byte) : Option Opcode := Opcode.all.find? (fun m => m.code == op)

/-- A code of the optional payload decoder (unit 3, R72, R190). -/
def isDecoderCode (op : Byte) : Bool :=
  match lookupOpcode op with
  | some m => unitOf (unitField m.code) == some .payloadDecoder
  | none => false

/-- The operand type of a value (R73). -/
def Operand.type : Operand → OperandType
  | .bytes _ => .bytes
  | .nat _   => .nat
  | .uint8 _ => .uint8
  | .bool _  => .bool

/-- The command a row and its operand values stand for, in the operand order of R71. -/
def bindOperands : Opcode → List Operand → Option Instr
  | .crc8,         [.bytes data, .nat n]                             => some (.crc8 data n)
  | .crc16,        [.bytes data, .nat n]                             => some (.crc16 data n)
  | .crc8Init,     []                                                => some .crc8Init
  | .crc8Byte,     [.uint8 b]                                        => some (.crc8Byte b)
  | .crc8Read,     []                                                => some .crc8Read
  | .crc16Init,    []                                                => some .crc16Init
  | .crc16Byte,    [.uint8 b]                                        => some (.crc16Byte b)
  | .crc16Read,    []                                                => some .crc16Read
  | .build,        [.bytes payload, .uint8 seq, .uint8 c0, .uint8 c1] => some (.build payload seq c0 c1)
  | .feed,         [.bytes buf]                                      => some (.feed buf)
  | .rxAppend,     [.bytes chunk]                                    => some (.rxAppend chunk)
  | .rxParse,      []                                                => some .rxParse
  | .rxClear,      []                                                => some .rxClear
  | .decodeCoords, [.bytes payload]                                  => some (.decodeCoords payload)
  | .encodeVuln,   [.bool r1, .bool r2, .bool r3, .bool r4, .bool r7] => some (.encodeVuln r1 r2 r3 r4 r7)
  | .decodeVuln,   [.uint8 v]                                        => some (.decodeVuln v)
  | .status,       []                                                => some .status
  | _,             _                                                 => none

/-- Decodes an issued pair (R70, R71, R73, R82). -/
def decode (c : Command) : Except DecodeError Instr :=
  match lookupOpcode c.op with
  | none => .error .illegalOp
  | some m =>
    match bindOperands m c.operands with
    | some i => .ok i
    | none => .error .wrongOperands

/-- The row of a command (R71). -/
def opcodeOf : Instr → Opcode
  | .crc8 _ _           => .crc8
  | .crc16 _ _          => .crc16
  | .crc8Init           => .crc8Init
  | .crc8Byte _         => .crc8Byte
  | .crc8Read           => .crc8Read
  | .crc16Init          => .crc16Init
  | .crc16Byte _        => .crc16Byte
  | .crc16Read          => .crc16Read
  | .build _ _ _ _      => .build
  | .feed _             => .feed
  | .rxAppend _         => .rxAppend
  | .rxParse            => .rxParse
  | .rxClear            => .rxClear
  | .decodeCoords _     => .decodeCoords
  | .encodeVuln _ _ _ _ _ => .encodeVuln
  | .decodeVuln _       => .decodeVuln
  | .status             => .status

/-- The operand values of a command, in the order of R71. -/
def operandsOf : Instr → List Operand
  | .crc8 data n             => [.bytes data, .nat n]
  | .crc16 data n            => [.bytes data, .nat n]
  | .crc8Init                => []
  | .crc8Byte b              => [.uint8 b]
  | .crc8Read                => []
  | .crc16Init               => []
  | .crc16Byte b             => [.uint8 b]
  | .crc16Read               => []
  | .build payload seq c0 c1 => [.bytes payload, .uint8 seq, .uint8 c0, .uint8 c1]
  | .feed buf                => [.bytes buf]
  | .rxAppend chunk          => [.bytes chunk]
  | .rxParse                 => []
  | .rxClear                 => []
  | .decodeCoords payload    => [.bytes payload]
  | .encodeVuln r1 r2 r3 r4 r7 => [.bool r1, .bool r2, .bool r3, .bool r4, .bool r7]
  | .decodeVuln v            => [.uint8 v]
  | .status                  => []

/-- The pair `(op, operands)` that issues a command (R70, R71). -/
def encode (i : Instr) : Command := ⟨(opcodeOf i).code, operandsOf i⟩

/-- The operand whose bits are all zero: what the host's table words stand for (notes/assumptions/4.md). -/
def OperandType.zero : OperandType → Operand
  | .bytes => .bytes []
  | .nat   => .nat 0
  | .uint8 => .uint8 0
  | .bool  => .bool false

/-- The command whose code is `op` with zero operands of the types the code selects (none for an illegal code). -/
def zeroCommand (op : Byte) : Command :=
  match lookupOpcode op with
  | some m => ⟨op, m.signature.map OperandType.zero⟩
  | none => ⟨op, []⟩

/-- The command that a table word of `nbits` bits stands for: bits 7..0 are the code octet (R71, R84), and the operands have no
bits in the table, so they are zero (notes/assumptions/4.md). -/
def tableCommand (nbits w : Nat) : Command := zeroCommand (BitVec.ofNat 8 (w % 2 ^ nbits))

/-- The instruction the decoder reads from a table word (notes/assumptions/4.md). A command has one code octet (R84), so a word
of another width is none. -/
def decodeTableWord (nbits w : Nat) : Option Instr :=
  if nbits = 8 then
    match decode (tableCommand nbits w) with
    | .ok i => some i
    | .error _ => none
  else none

end Sys2Proof
end

