-- ==== Sys2Proof/Config.lean ====
section
/-! DEFINITION. The configuration record `Cfg` of 00_scope.md R7: the parameters R7 marks OPEN are its fields, the ones R7
gives a value are plain constants. `Config.supplied` is the instance's configuration: it has no body, because no source
fixes it (R7 OPEN, R242; notes/assumptions/1.md). -/

namespace Sys2Proof

/-- `CRC16_FORM` of R7: which end of the uint16 the table-driven update consumes (R100). -/
inductive CrcForm where
  | reflected
  | normal
deriving DecidableEq, Repr, Inhabited

/-- `INCOMPLETE_POLICY` of R7: what RX_PARSE does with an incomplete frame (R161). -/
inductive IncompletePolicy where
  | retain
  | drop
deriving DecidableEq, Repr, Inhabited

/-- `RXBUF_CAP` of R7: a natural number of bytes, or unbounded. -/
inductive Capacity where
  | unbounded
  | bytes (n : Nat)
deriving DecidableEq, Repr, Inhabited

/-- The OPEN parameters of R7, fixed for an instance (R32). `knownCmds` holds the finite set `KNOWN_CMDS` as a list. -/
structure Cfg where
  crc8Table         : Vector Byte 256
  crc8Init          : Byte
  crc8Xorout        : Byte
  crc16Table        : Vector Half 256
  crc16Init         : Half
  crc16Xorout       : Half
  crc16Form         : CrcForm
  knownCmds         : List Half
  telemetryCmd      : Half
  incompletePolicy  : IncompletePolicy
  rxbufCap          : Capacity
  hasPayloadDecoder : Bool
deriving DecidableEq, Repr, Inhabited

namespace Config

/-- The configuration the integrator supplies for this instance (R35, R242). OPEN in every source: no body, so nothing can be
proved of its values. DESIGN CHOICE, safe (notes/assumptions/1.md). -/
opaque supplied : Cfg

/-- `START_BYTE` (R7). -/
def startByte : Byte := 0xA5

/-- `HEADER_LEN` (R7): start byte, data_length, sequence, header CRC, command id. -/
def headerLen : Nat := 7

/-- `TRAILER_LEN` (R7): the CRC-16. -/
def trailerLen : Nat := 2

/-- `MAX_PAYLOAD` (R7). -/
def maxPayload : Nat := 65535

/-- `X_MAX` (R7). -/
def xMax : Half := 2800

/-- `Y_MAX` (R7). -/
def yMax : Half := 1500

end Config

end Sys2Proof
end

