-- ==== Sys2Proof/Machine/Response.lean ====
section
/-! DEFINITION. What a command answers: the response of 30_encoding.md R74, the fault codes of 60_exceptions.md R211, the parse
result record of R80 and R81, and the value records of R191, R196 and R215. -/

namespace Sys2Proof.Machine

/-- The fault codes of R211. A fault is an answer, not a stop: the block goes on (R219). -/
inductive FaultCode where
  /-- Code 1: the command code is not in the table, or names the absent payload decoder. -/
  | illegalOp
  /-- Code 2: CRC8 or CRC16 with `n > |data|`. -/
  | crcLength
  /-- Code 3: BUILD with a payload longer than 65535. -/
  | buildLength
  /-- Code 4: RX_APPEND beyond `RXBUF_CAP`. -/
  | rxOverflow
  /-- Code 5: a streaming command while the accumulator holds no value. -/
  | accUninit
deriving DecidableEq, Repr

/-- The parse outcome names of R80. -/
inductive ParseCode where
  | frame
  | noStartByte
  | incomplete
  | headerCrcMismatch
  | bodyCrcMismatch
  | unknownCommand
deriving DecidableEq, Repr

/-- The record `ParseResult` of R81. A field its code does not carry holds no value (`none`). -/
structure ParseResult where
  code    : ParseCode
  start   : Option Nat := none
  len     : Option Nat := none
  cmd     : Option Half := none
  seq     : Option Byte := none
  payload : Option (List Byte) := none
deriving DecidableEq, Repr

/-- One robot's entry of a RobotCoordinateSet (R191). -/
structure CoordEntry where
  received : Bool
  x        : Half
  y        : Half
deriving DecidableEq, Repr

/-- The RobotCoordinateSet: the robots R1, R2, R3, R4, R5, R7 (R191). -/
structure CoordSet where
  r1 : CoordEntry
  r2 : CoordEntry
  r3 : CoordEntry
  r4 : CoordEntry
  r5 : CoordEntry
  r7 : CoordEntry
deriving DecidableEq, Repr

/-- The flags of a VulnerabilityFlagPayload: the robots R1, R2, R3, R4, R7 (R196). -/
structure VulnFlags where
  r1 : Bool
  r2 : Bool
  r3 : Bool
  r4 : Bool
  r7 : Bool
deriving DecidableEq, Repr

/-- What STATUS reads (R215). -/
structure StatusReport where
  fault      : Byte
  rxlen      : Nat
  acc8Valid  : Bool
  acc16Valid : Bool
deriving DecidableEq, Repr

/-- The values a command's rule defines (R74). `unit` is the empty `OK()`, `notDecoded` the NOT_DECODED of R191. -/
inductive Value where
  | unit
  | uint8 (v : Byte)
  | uint16 (v : Half)
  | nat (n : Nat)
  | bytes (f : List Byte)
  | parse (r : ParseResult)
  | notDecoded
  | coords (c : CoordSet)
  | flags (f : VulnFlags)
  | status (r : StatusReport)
deriving DecidableEq, Repr

/-- A response: `OK(v)` or `ERR(k)` (R74). -/
inductive Response where
  | ok (v : Value)
  | err (k : FaultCode)
deriving DecidableEq, Repr

end Sys2Proof.Machine
end

