-- ==== Sys2Proof/Machine/State.lean ====
section
/-! DEFINITION. The state of the block as plain data (10_state.md), the reasons a step can stop, and the state after reset (R35).
There is no memory to hold: the block has none (20_memory.md R50). -/

namespace Sys2Proof.Machine

/-- The spec's `St = (ACC8, ACC16, RXBUF, FAULT)` (10_state.md section 2), the instance's configuration, which no step changes (R32),
and two fields of the model's own: the events the agents have issued and the block has not performed yet, and the latest response. -/
structure State where
  /-- `Cfg`: a parameter of every step (R7, R32). It stands here because `step` takes a state alone (notes/assumptions/1.md). -/
  cfg      : Cfg
  /-- ACC8 (R23); `none` is the spec's "holds no value". -/
  acc8     : Option Byte
  /-- ACC16 (R24). -/
  acc16    : Option Half
  /-- RXBUF (R30), oldest byte first. -/
  rxbuf    : List Byte
  /-- FAULT (R28). -/
  fault    : Byte
  /-- The events issued, in the one total order of R63, next first (notes/assumptions/2.md). -/
  inbox    : List Event
  /-- The response of the latest command since reset (R70, R74; notes/assumptions/3.md). -/
  response : Option Response
deriving DecidableEq, Repr

/-- What stops the machine. The spec's own faults (R211) stop nothing and are `FaultCode`s. Both reasons here are ones the spec
asks a model to have and no command reaches; both are safe (notes/assumptions/5.md). -/
inductive Fault where
  /-- Raised by a byte or slice read outside its sequence (20_memory.md R59: "It must fault, not return a value"). Safe. -/
  | outOfRange
  /-- Raised by reading a ParseResult field its code does not carry (30_encoding.md R81: "a model that reads it must fault"). Safe. -/
  | absentField
deriving DecidableEq, Repr

/-- Why a step has no meaning for what was issued. -/
inductive Refusal where
  /-- Raised by an arm of exec whose instruction has no meaning yet. Safe. No arm raises it. -/
  | notModelled (mnemonic : String)
  /-- Raised by the step for a pair whose operands are not the typed list its code selects: "not a command and cannot be issued"
  (30_encoding.md R73). Safe (notes/assumptions/8.md). -/
  | notACommand
deriving DecidableEq, Repr

/-- Every piece of state at its value after reset (R35), for the configuration latched at that reset (R240). -/
def State.resetWith (c : Cfg) : State :=
  { cfg := c, acc8 := none, acc16 := none, rxbuf := [], fault := 0, inbox := [], response := none }

/-- The block right after reset, with the configuration supplied for the instance (R35). -/
def State.reset : State := State.resetWith Config.supplied

end Sys2Proof.Machine
end

