-- ==== Sys2Proof/Machine/Flags.lean ====
section
/-! DEFINITION. The numbers of the fault codes and of the parse outcomes, and the bits of FAULT (10_state.md R28, 30_encoding.md R80,
60_exceptions.md R211). The block has no condition codes (R27). -/

namespace Sys2Proof.Machine

/-- The code `k` of `ERR(k)` (R211). -/
def FaultCode.number : FaultCode → Nat
  | .illegalOp   => 1
  | .crcLength   => 2
  | .buildLength => 3
  | .rxOverflow  => 4
  | .accUninit   => 5

/-- Bit `k-1` of FAULT (R28). -/
def FaultCode.bit (k : FaultCode) : Byte := (1 : Byte) <<< (k.number - 1)

/-- `FAULT | (1 << (k-1))` (R212). -/
def recordFault (fault : Byte) (k : FaultCode) : Byte := fault ||| k.bit

/-- The reserved bits 5, 6 and 7 of FAULT (R28). -/
def reservedFaultBits : Byte := 0xE0

/-- The numeric outcome codes (R80). -/
def ParseCode.number : ParseCode → Nat
  | .frame             => 0
  | .noStartByte       => 1
  | .incomplete        => 2
  | .headerCrcMismatch => 3
  | .bodyCrcMismatch   => 4
  | .unknownCommand    => 5

end Sys2Proof.Machine
end

