-- ==== Sys2Proof/Machine/Operands.lean ====
section
/-! DEFINITION. Reading and writing the parts of byte sequences: the guarded byte and slice reads of 20_memory.md R59, the two bytes
of a uint16 (00_scope.md R9), and the guarded reads of a ParseResult's fields (30_encoding.md R81). -/

namespace Sys2Proof.Machine

/-- `b[i]` (R9); outside the sequence it faults (R59). -/
def readByte (b : List Byte) (i : Nat) : Except Fault Byte :=
  match b[i]? with
  | some v => .ok v
  | none => .error .outOfRange

/-- `b[i:j]`, the half-open subsequence (R9); outside the sequence it faults (R59). -/
def slice (b : List Byte) (i j : Nat) : Except Fault (List Byte) :=
  if i ≤ j ∧ j ≤ b.length then .ok ((b.drop i).take (j - i)) else .error .outOfRange

/-- `lo(v) = v & 0xFF` (R9). -/
def lo (v : Half) : Byte := v.extractLsb' 0 8

/-- `hi(v) = (v >> 8) & 0xFF` (R9). -/
def hi (v : Half) : Byte := v.extractLsb' 8 8

/-- `le16(a, b) = a | (b << 8)` (R9). -/
def le16 (a b : Byte) : Half := a.zeroExtend 16 ||| (b.zeroExtend 16 <<< 8)

/-- The little-endian uint16 at offset `i` (R53, R56). -/
def readLe16 (b : List Byte) (i : Nat) : Except Fault Half := do
  let low ← readByte b i
  let high ← readByte b (i + 1)
  return le16 low high

/-- A field a ParseResult carries; an absent one faults (R81). -/
def readField {α : Type} (f : Option α) : Except Fault α :=
  match f with
  | some v => .ok v
  | none => .error .absentField

end Sys2Proof.Machine
end

