-- ==== Sys2Proof/Machine/Ops.lean ====
section
/-! DEFINITION. The operations every command is made of: answering (30_encoding.md R74), raising a fault (60_exceptions.md R212),
finishing a computation that reads guarded bytes, the capacity of RXBUF (10_state.md R30), and the host's reset
(70_reset_and_hazards.md R240). A fault saves nothing and transfers control nowhere, so there is no return from one (R218, R219). -/

namespace Sys2Proof.Machine

/-- Answers `OK(v)` (R74). -/
def respond (v : Value) (s : State) : State := { s with response := some (.ok v) }

/-- Raises the fault `k`: its FAULT bit is set, `ERR(k)` is answered, and nothing else is written (R212). -/
def raise (k : FaultCode) (s : State) : State :=
  { s with fault := recordFault s.fault k, response := some (.err k) }

/-- Ends a command whose value was computed by guarded reads. A read out of range stops the machine (R59). -/
def complete {α : Type} (r : Except Fault α) (k : α → State) : Host.Outcome State Fault Refusal :=
  match r with
  | .ok v => .next (k v)
  | .error f => .fault f

/-- Whether a receive buffer of `n` bytes is within `RXBUF_CAP` (R30, R170). -/
def withinCapacity (c : Capacity) (n : Nat) : Bool :=
  match c with
  | .unbounded => true
  | .bytes cap => decide (n ≤ cap)

/-- Answers `OK(v)` when unit 3 is present; its codes are illegal when it is not (R190). -/
def respondFromDecoder (v : Value) (s : State) : State :=
  if s.cfg.hasPayloadDecoder then respond v s else raise .illegalOp s

/-- The host's reset (R240): every piece of state at its reset value (R35), the instance's configuration kept. The events not
performed yet stay issued: they are the agents', not the block's (notes/assumptions/9.md). -/
def hostReset (s : State) : State := { State.resetWith s.cfg with inbox := s.inbox }

end Sys2Proof.Machine
end

