-- ==== Sys2Proof/Machine/Checksum.lean ====
section
/-! DEFINITION. The checksum engine (41_checksum.md): the CRC functions over the configuration (R100), and the eight commands of
unit 0 (R101 to R108). -/

namespace Sys2Proof.Machine

/-- `CRC8_TABLE[i]`. -/
def tableEntry8 (c : Cfg) (i : Byte) : Byte := c.crc8Table[i.toNat]'i.isLt

/-- `CRC16_TABLE[i]`. -/
def tableEntry16 (c : Cfg) (i : Byte) : Half := c.crc16Table[i.toNat]'i.isLt

/-- `step8` of R100. -/
def step8 (c : Cfg) (acc b : Byte) : Byte := tableEntry8 c (acc ^^^ b)

/-- `step16` of R100, in the form the configuration selects. -/
def step16 (c : Cfg) (acc : Half) (b : Byte) : Half :=
  match c.crc16Form with
  | .reflected => (acc >>> 8) ^^^ tableEntry16 c (lo (acc ^^^ b.zeroExtend 16))
  | .normal    => (acc <<< 8) ^^^ tableEntry16 c (lo ((acc >>> 8) ^^^ b.zeroExtend 16))

/-- The CRC-8 of a whole sequence: `CRC8_INIT`, one `step8` a byte, the final XOR (R100). -/
def crc8Of (c : Cfg) (data : List Byte) : Byte := data.foldl (step8 c) c.crc8Init ^^^ c.crc8Xorout

/-- The CRC-16 of a whole sequence (R100). -/
def crc16Of (c : Cfg) (data : List Byte) : Half := data.foldl (step16 c) c.crc16Init ^^^ c.crc16Xorout

/-- `crc8(data, n)` of R100, defined only when `n <= |data|`: only the first `n` bytes take part. -/
def crc8 (c : Cfg) (data : List Byte) (n : Nat) : Except Fault Byte := do
  let bytes ← slice data 0 n
  return crc8Of c bytes

/-- `crc16(data, n)` of R100, defined only when `n <= |data|`. -/
def crc16 (c : Cfg) (data : List Byte) (n : Nat) : Except Fault Half := do
  let bytes ← slice data 0 n
  return crc16Of c bytes

/-- CRC8 (R101). -/
def execCrc8 (data : List Byte) (n : Nat) (s : State) : Host.Outcome State Fault Refusal :=
  if n > data.length then .next (raise .crcLength s)
  else complete (crc8 s.cfg data n) (fun v => respond (.uint8 v) s)

/-- CRC16 (R102). -/
def execCrc16 (data : List Byte) (n : Nat) (s : State) : Host.Outcome State Fault Refusal :=
  if n > data.length then .next (raise .crcLength s)
  else complete (crc16 s.cfg data n) (fun v => respond (.uint16 v) s)

/-- CRC8_INIT (R103). -/
def execCrc8Init (s : State) : Host.Outcome State Fault Refusal :=
  .next (respond .unit { s with acc8 := some s.cfg.crc8Init })

/-- CRC8_BYTE (R104): the accumulator keeps the raw value, the response has the final XOR. -/
def execCrc8Byte (b : Byte) (s : State) : Host.Outcome State Fault Refusal :=
  match s.acc8 with
  | none => .next (raise .accUninit s)
  | some acc =>
    .next (respond (.uint8 (step8 s.cfg acc b ^^^ s.cfg.crc8Xorout)) { s with acc8 := some (step8 s.cfg acc b) })

/-- CRC8_READ (R105). -/
def execCrc8Read (s : State) : Host.Outcome State Fault Refusal :=
  match s.acc8 with
  | none => .next (raise .accUninit s)
  | some acc => .next (respond (.uint8 (acc ^^^ s.cfg.crc8Xorout)) s)

/-- CRC16_INIT (R106). -/
def execCrc16Init (s : State) : Host.Outcome State Fault Refusal :=
  .next (respond .unit { s with acc16 := some s.cfg.crc16Init })

/-- CRC16_BYTE (R107). -/
def execCrc16Byte (b : Byte) (s : State) : Host.Outcome State Fault Refusal :=
  match s.acc16 with
  | none => .next (raise .accUninit s)
  | some acc =>
    .next (respond (.uint16 (step16 s.cfg acc b ^^^ s.cfg.crc16Xorout)) { s with acc16 := some (step16 s.cfg acc b) })

/-- CRC16_READ (R108). -/
def execCrc16Read (s : State) : Host.Outcome State Fault Refusal :=
  match s.acc16 with
  | none => .next (raise .accUninit s)
  | some acc => .next (respond (.uint16 (acc ^^^ s.cfg.crc16Xorout)) s)

end Sys2Proof.Machine
end

