-- ==== Sys2Proof/Machine/FrameBuilder.lean ====
section
/-! DEFINITION. The frame builder (42_frame_builder.md): the frame layout of 30_encoding.md R75 in the step order of R130. -/

namespace Sys2Proof.Machine

/-- The frame of R130, built part by part: each checksum is taken over what has been emitted so far. -/
def buildFrame (c : Cfg) (payload : List Byte) (seq c0 c1 : Byte) : Except Fault (List Byte) := do
  let L : Half := BitVec.ofNat 16 payload.length
  let f := [Config.startByte, lo L, hi L, seq]
  let headerCrc ← crc8 c f 4
  let f := f ++ [headerCrc]
  let f := f ++ [c1, c0]
  let f := f ++ payload
  let k ← crc16 c f (Config.headerLen + payload.length)
  return f ++ [lo k, hi k]

/-- BUILD (R130): any payload up to 65535 bytes; a longer one faults. -/
def execBuild (payload : List Byte) (seq c0 c1 : Byte) (s : State) : Host.Outcome State Fault Refusal :=
  if payload.length > Config.maxPayload then .next (raise .buildLength s)
  else complete (buildFrame s.cfg payload seq c0 c1) (fun f => respond (.bytes f) s)

end Sys2Proof.Machine
end

