-- ==== Sys2Proof/Machine/FrameParser.lean ====
section
/-! DEFINITION. The frame delimiter and parser (43_frame_parser.md): the seven steps of R150, the consume table of R161, and the
commands FEED, RX_APPEND, RX_PARSE and RX_CLEAR (R160, R170, R171, R174). -/

namespace Sys2Proof.Machine

/-- Step 1: the least offset of a start byte (R151). -/
def findStart (buf : List Byte) : Option Nat := buf.findIdx? (· == Config.startByte)

/-- Steps 5 to 7, for a candidate at `s` whose `9 + L` bytes are present (R155, R156, R157). -/
def parseBody (c : Cfg) (buf : List Byte) (s L : Nat) : Except Fault ParseResult := do
  let cmd ← readLe16 buf (s + 5)
  let seq ← readByte buf (s + 3)
  let p ← slice buf (s + 7) (s + 7 + L)
  if cmd ∈ c.knownCmds then
    let rcrc ← readLe16 buf (s + 7 + L)
    let body ← slice buf s (s + 7 + L)
    let k ← crc16 c body (7 + L)
    if k ≠ rcrc then
      return { code := .bodyCrcMismatch, start := some s, len := some L }
    else
      return { code := .frame, start := some s, len := some L, cmd := some cmd, seq := some seq, payload := some p }
  else
    return { code := .unknownCommand, start := some s, len := some L, cmd := some cmd, seq := some seq, payload := some p }

/-- Step 4, for a candidate at `s` whose header passed: the whole frame must be present (R154). -/
def parsePresent (c : Cfg) (buf : List Byte) (s L : Nat) : Except Fault ParseResult :=
  if buf.length - s < Config.headerLen + L + Config.trailerLen then
    .ok { code := .incomplete, start := some s, len := some L }
  else parseBody c buf s L

/-- Step 3, for a candidate at `s` with its 7 header bytes present: the header CRC is checked before `L` is used (R153). -/
def parseHeader (c : Cfg) (buf : List Byte) (s : Nat) : Except Fault ParseResult := do
  let L ← readLe16 buf (s + 1)
  let header ← slice buf s (s + 4)
  let k ← crc8 c header 4
  let hcrc ← readByte buf (s + 4)
  if k ≠ hcrc then
    return { code := .headerCrcMismatch, start := some s }
  else parsePresent c buf s L.toNat

/-- Step 2, for a candidate at `s`: the minimum header must be present (R152). -/
def parseCandidate (c : Cfg) (buf : List Byte) (s : Nat) : Except Fault ParseResult :=
  if buf.length - s < Config.headerLen then .ok { code := .incomplete, start := some s }
  else parseHeader c buf s

/-- `parse(buf)` (R150): the first step that returns decides the outcome. -/
def parse (c : Cfg) (buf : List Byte) : Except Fault ParseResult :=
  match findStart buf with
  | none => .ok { code := .noStartByte }
  | some s => parseCandidate c buf s

/-- `consume(r, n)` (R161): the bytes to remove from the front of a buffer of length `n` after outcome `r`. -/
def consume (c : Cfg) (r : ParseResult) (n : Nat) : Except Fault Nat :=
  match r.code with
  | .noStartByte => .ok n
  | .incomplete =>
    match c.incompletePolicy with
    | .retain => readField r.start
    | .drop => .ok n
  | .headerCrcMismatch => do
    let start ← readField r.start
    return start + 1
  | .bodyCrcMismatch => do
    let start ← readField r.start
    return start + 1
  | .unknownCommand => do
    let start ← readField r.start
    let len ← readField r.len
    return start + 9 + len
  | .frame => do
    let start ← readField r.start
    let len ← readField r.len
    return start + 9 + len

/-- What RX_PARSE computes from RXBUF: the result, and the bytes kept (R171). -/
def takeFrame (c : Cfg) (buf : List Byte) : Except Fault (ParseResult × List Byte) := do
  let r ← parse c buf
  let k ← consume c r buf.length
  let rest ← slice buf k buf.length
  return (r, rest)

/-- FEED (R160): the stateless parser. -/
def execFeed (buf : List Byte) (s : State) : Host.Outcome State Fault Refusal :=
  complete (parse s.cfg buf) (fun r => respond (.parse r) s)

/-- RX_APPEND (R170): the whole chunk or nothing. -/
def execRxAppend (chunk : List Byte) (s : State) : Host.Outcome State Fault Refusal :=
  .next
    (if withinCapacity s.cfg.rxbufCap (s.rxbuf.length + chunk.length) then
      respond (.nat (s.rxbuf ++ chunk).length) { s with rxbuf := s.rxbuf ++ chunk }
    else raise .rxOverflow s)

/-- RX_PARSE (R171): `r.start` is an offset into RXBUF as it was before the trim. -/
def execRxParse (s : State) : Host.Outcome State Fault Refusal :=
  complete (takeFrame s.cfg s.rxbuf) (fun p => respond (.parse p.1) { s with rxbuf := p.2 })

/-- RX_CLEAR (R174). -/
def execRxClear (s : State) : Host.Outcome State Fault Refusal :=
  .next (respond .unit { s with rxbuf := [] })

end Sys2Proof.Machine
end

