-- ==== Sys2Proof/Machine/PayloadDecode.lean ====
section
/-! DEFINITION. The optional payload decoder, unit 3 (44_payload_decode.md): DECODE_COORDS, ENCODE_VULN and DECODE_VULN, and the
host's side that R192 and R197 give. -/

namespace Sys2Proof.Machine

/-- `min(v, bound)` of R191, unsigned. -/
def clamp (v bound : Half) : Half := if bound.toNat < v.toNat then bound else v

/-- One robot's entry: its raw pair is tested for the `(0, 0)` sentinel, then clamped (R191, R194). -/
def coordEntry (xr yr : Half) : CoordEntry :=
  { received := !(xr == 0 && yr == 0), x := clamp xr Config.xMax, y := clamp yr Config.yMax }

/-- Entry `k` of the payload: the two little-endian uint16 values at offset `4k` (R191). -/
def readEntry (payload : List Byte) (k : Nat) : Except Fault CoordEntry := do
  let xr ← readLe16 payload (4 * k)
  let yr ← readLe16 payload (4 * k + 2)
  return coordEntry xr yr

/-- What DECODE_COORDS answers when unit 3 is present (R191): a short payload is the normal result NOT_DECODED. -/
def decodeCoordinates (payload : List Byte) : Except Fault Value :=
  if payload.length < 24 then .ok .notDecoded
  else do
    let r1 ← readEntry payload 0
    let r2 ← readEntry payload 1
    let r3 ← readEntry payload 2
    let r4 ← readEntry payload 3
    let r5 ← readEntry payload 4
    let r7 ← readEntry payload 5
    return .coords { r1 := r1, r2 := r2, r3 := r3, r4 := r4, r5 := r5, r7 := r7 }

/-- The vulnerability bitmask (R195): R1 = bit 0, R2 = bit 1, R3 = bit 2, R4 = bit 3, R7 = bit 4, bits 7..5 zero. -/
def vulnMask (r1 r2 r3 r4 r7 : Bool) : Byte :=
  (BitVec.ofBool r1).zeroExtend 8 ||| ((BitVec.ofBool r2).zeroExtend 8 <<< 1) ||| ((BitVec.ofBool r3).zeroExtend 8 <<< 2)
    ||| ((BitVec.ofBool r4).zeroExtend 8 <<< 3) ||| ((BitVec.ofBool r7).zeroExtend 8 <<< 4)

/-- The flags of a bitmask; bits 5..7 are ignored (R196). -/
def vulnFlags (v : Byte) : VulnFlags :=
  { r1 := v.getLsbD 0, r2 := v.getLsbD 1, r3 := v.getLsbD 2, r4 := v.getLsbD 3, r7 := v.getLsbD 4 }

/-- DECODE_COORDS (R191); ILLEGAL_OP when the unit is absent (R190). -/
def execDecodeCoords (payload : List Byte) (s : State) : Host.Outcome State Fault Refusal :=
  complete (decodeCoordinates payload) (fun v => respondFromDecoder v s)

/-- ENCODE_VULN (R195); ILLEGAL_OP when the unit is absent (R190). -/
def execEncodeVuln (r1 r2 r3 r4 r7 : Bool) (s : State) : Host.Outcome State Fault Refusal :=
  .next (respondFromDecoder (.uint8 (vulnMask r1 r2 r3 r4 r7)) s)

/-- DECODE_VULN (R196); ILLEGAL_OP when the unit is absent (R190). -/
def execDecodeVuln (v : Byte) (s : State) : Host.Outcome State Fault Refusal :=
  .next (respondFromDecoder (.flags (vulnFlags v)) s)

/-- When the host applies DECODE_COORDS to a result: a FRAME of the telemetry command with `len >= 24` (R179, R192). The command
itself does not check it. -/
def isTelemetry (c : Cfg) (r : ParseResult) : Bool :=
  r.code == .frame && r.cmd == some c.telemetryCmd &&
    match r.len with
    | some l => decide (24 ≤ l)
    | none => false

/-- How the host sends a vulnerability bitmask: the one-byte payload of command 0x020C (R197). -/
def vulnFrame (v seq : Byte) : Instr := .build [v] seq 0x02 0x0C

end Sys2Proof.Machine
end

