-- ==== Sys2Proof/Machine/Status.lean ====
section
/-! DEFINITION. The status unit: STATUS (60_exceptions.md R215). -/

namespace Sys2Proof.Machine

/-- What STATUS reads (R215). -/
def statusReport (s : State) : StatusReport :=
  { fault := s.fault, rxlen := s.rxbuf.length, acc8Valid := s.acc8.isSome, acc16Valid := s.acc16.isSome }

/-- STATUS (R215). -/
def execStatus (s : State) : Host.Outcome State Fault Refusal := .next (respond (.status (statusReport s)) s)

end Sys2Proof.Machine
end

