-- ==== Sys2Proof/Machine/Dispatch.lean ====
section
/-! DEFINITION. One arm per command of the opcode table (30_encoding.md R71). -/

namespace Sys2Proof.Machine

def exec (i : Instr) (s : State) : Host.Outcome State Fault Refusal :=
  match i with
  -- unit 0, the checksum engine
  | .crc8 data n => Sys2Proof.Machine.execCrc8 data n s
  | .crc16 data n => Sys2Proof.Machine.execCrc16 data n s
  | .crc8Init => Sys2Proof.Machine.execCrc8Init s
  | .crc8Byte b => Sys2Proof.Machine.execCrc8Byte b s
  | .crc8Read => Sys2Proof.Machine.execCrc8Read s
  | .crc16Init => Sys2Proof.Machine.execCrc16Init s
  | .crc16Byte b => Sys2Proof.Machine.execCrc16Byte b s
  | .crc16Read => Sys2Proof.Machine.execCrc16Read s
  -- unit 1, the frame builder
  | .build payload seq c0 c1 => Sys2Proof.Machine.execBuild payload seq c0 c1 s
  -- unit 2, the frame parser
  | .feed buf => Sys2Proof.Machine.execFeed buf s
  | .rxAppend chunk => Sys2Proof.Machine.execRxAppend chunk s
  | .rxParse => Sys2Proof.Machine.execRxParse s
  | .rxClear => Sys2Proof.Machine.execRxClear s
  -- unit 3, the optional payload decoder
  | .decodeCoords payload => Sys2Proof.Machine.execDecodeCoords payload s
  | .encodeVuln r1 r2 r3 r4 r7 => Sys2Proof.Machine.execEncodeVuln r1 r2 r3 r4 r7 s
  | .decodeVuln v => Sys2Proof.Machine.execDecodeVuln v s
  -- unit 4, status
  | .status => Sys2Proof.Machine.execStatus s

end Sys2Proof.Machine
end

