-- ==== Sys2Proof/Machine/Fetch.lean ====
section
/-! DEFINITION. Performing the next event (20_memory.md R60, R63; 30_encoding.md R70, R82; 70_reset_and_hazards.md R240). The block
fetches nothing from memory (R67): the next event is the head of the order the agents issue them in. -/

namespace Sys2Proof.Machine

/-- Performs an issued pair. The illegal-code check comes first (R213): a code outside the table, or a decoder code while the
decoder is absent, raises ILLEGAL_OP whatever stands beside it (R82). A pair whose operands are not the typed list its code
selects is no command (R73). -/
def issueCommand (c : Command) (s : State) : Host.Outcome State Fault Refusal :=
  match decode c with
  | .ok i => exec i s
  | .error .illegalOp => .next (raise .illegalOp s)
  | .error .wrongOperands =>
    if isDecoderCode c.op && !s.cfg.hasPayloadDecoder then .next (raise .illegalOp s) else .refused .notACommand

/-- Takes the next event of the total order (R63) and performs it. With none issued the block performs nothing (R240). -/
def performNext (s : State) : Host.Outcome State Fault Refusal :=
  match s.inbox with
  | [] => .next s
  | .reset :: rest => .next (hostReset { s with inbox := rest })
  | .command _ c :: rest => issueCommand c { s with inbox := rest }

/-- Issues `e` before everything that is waiting. -/
def issueFirst (e : Event) (s : State) : State := { s with inbox := e :: s.inbox }

end Sys2Proof.Machine
end

