-- ==== Sys2Proof/Machine/Step.lean ====
section
/-! DEFINITION. One step: one event performed, atomically (20_memory.md R60). -/

namespace Sys2Proof.Machine

/-- One step of the block. -/
def step (s : State) : Host.Outcome State Fault Refusal := Sys2Proof.Machine.performNext s

/-- `s` with the command of a table word issued as the next event (notes/assumptions/4.md). -/
def State.withFetchWord (s : State) (nbits w : Nat) : State :=
  Sys2Proof.Machine.issueFirst (.command .host (Sys2Proof.tableCommand nbits w)) s

end Sys2Proof.Machine
end

