-- ==== Sys2Proof/Machine/Program.lean ====
section
/-! DEFINITION. The host's way to write command programs: the pseudo-commands of 30_encoding.md R86, and the program text of R85 as an
assembler from characters to events, with the matching printer. What R85 leaves open about the text (spaces, letter case) is in
notes/assumptions/10.md. -/

namespace Sys2Proof.Machine

/-! ## Pseudo-commands (R86) -/

/-- `CRC8_STREAM [b0 .. bk-1]`. -/
def crc8Stream (bytes : List Byte) : List Instr := .crc8Init :: bytes.map .crc8Byte ++ [.crc8Read]

/-- `CRC16_STREAM [b0 .. bk-1]`. -/
def crc16Stream (bytes : List Byte) : List Instr := .crc16Init :: bytes.map .crc16Byte ++ [.crc16Read]

/-- `RECV chunk`. -/
def recv (chunk : List Byte) : List Instr := [.rxAppend chunk, .rxParse]

/-- A program of one agent's commands as events, in order (R85). -/
def issuedBy (a : Agent) (is : List Instr) : List Event := is.map (fun i => .command a (encode i))

/-! ## Program text (R85) -/

/-- The spelling of each row of the opcode table (R71). -/
def mnemonic : Opcode → String
  | .crc8         => "CRC8"
  | .crc16        => "CRC16"
  | .crc8Init     => "CRC8_INIT"
  | .crc8Byte     => "CRC8_BYTE"
  | .crc8Read     => "CRC8_READ"
  | .crc16Init    => "CRC16_INIT"
  | .crc16Byte    => "CRC16_BYTE"
  | .crc16Read    => "CRC16_READ"
  | .build        => "BUILD"
  | .feed         => "FEED"
  | .rxAppend     => "RX_APPEND"
  | .rxParse      => "RX_PARSE"
  | .rxClear      => "RX_CLEAR"
  | .decodeCoords => "DECODE_COORDS"
  | .encodeVuln   => "ENCODE_VULN"
  | .decodeVuln   => "DECODE_VULN"
  | .status       => "STATUS"

/-- The row a mnemonic names. -/
def opcodeNamed (name : List Char) : Option Opcode := Opcode.all.find? (fun m => (mnemonic m).toList == name)

/-- The value of a hex digit. -/
def hexValue (c : Char) : Option Nat :=
  if '0' ≤ c ∧ c ≤ '9' then some (c.toNat - 48)
  else if 'A' ≤ c ∧ c ≤ 'F' then some (c.toNat - 55)
  else if 'a' ≤ c ∧ c ≤ 'f' then some (c.toNat - 87)
  else none

/-- The value of a decimal digit. -/
def decimalValue (c : Char) : Option Nat := if '0' ≤ c ∧ c ≤ '9' then some (c.toNat - 48) else none

/-- Two hex digits as an octet. -/
def hexByte (a b : Char) : Option Byte :=
  match hexValue a, hexValue b with
  | some h, some l => some (BitVec.ofNat 8 (16 * h + l))
  | _, _ => none

/-- The inside of a bytes operand up to its closing bracket: octets apart from each other by spaces. -/
def readOctets : List Char → Option (List Byte)
  | ' ' :: rest => readOctets rest
  | [']'] => some []
  | a :: b :: ' ' :: rest => do
    let v ← hexByte a b
    let vs ← readOctets rest
    return v :: vs
  | [a, b, ']'] => do
    let v ← hexByte a b
    return [v]
  | _ => none

/-- A decimal number, given the value of the digits already read. -/
def readDecimal : Nat → List Char → Option Nat
  | acc, [] => some acc
  | acc, c :: rest =>
    match decimalValue c with
    | some d => readDecimal (10 * acc + d) rest
    | none => none

/-- An operand of the given type (R85). -/
def readOperand : OperandType → List Char → Option Operand
  | .bytes, '[' :: rest        => (readOctets rest).map .bytes
  | .uint8, ['0', 'x', a, b]   => (hexByte a b).map .uint8
  | .nat, c :: rest            => (readDecimal 0 (c :: rest)).map .nat
  | .bool, ['0']               => some (.bool false)
  | .bool, ['1']               => some (.bool true)
  | _, _                       => none

/-- Operands of the given types, one text each. -/
def readOperands : List OperandType → List (List Char) → Option (List Operand)
  | [], [] => some []
  | t :: ts, x :: xs => do
    let v ← readOperand t x
    let vs ← readOperands ts xs
    return v :: vs
  | _, _ => none

/-- A text without the spaces at its two ends. -/
def trim (text : List Char) : List Char := ((text.dropWhile (· == ' ')).reverse.dropWhile (· == ' ')).reverse

/-- The parts of a text between commas. -/
def splitCommas : List Char → List (List Char)
  | [] => [[]]
  | ',' :: rest => [] :: splitCommas rest
  | c :: rest =>
    match splitCommas rest with
    | w :: ws => (c :: w) :: ws
    | [] => [[c]]

/-- The operand texts after a mnemonic; none when nothing stands there. -/
def operandTexts (text : List Char) : List (List Char) :=
  match trim text with
  | [] => []
  | rest => (splitCommas rest).map trim

/-- The events of one command, raw code or pseudo-command (R85, R86), issued by `a`. RECV is issued by the host alone (R86). -/
def assembleCommand (a : Agent) (name : List Char) (texts : List (List Char)) : Option (List Event) :=
  match opcodeNamed name with
  | some m => (readOperands m.signature texts).map (fun ops => [.command a ⟨m.code, ops⟩])
  | none =>
    if name = "OP".toList then
      match readOperands [.uint8] texts with
      | some [.uint8 op] => some [.command a ⟨op, []⟩]
      | _ => none
    else
      match readOperands [.bytes] texts with
      | some [.bytes bytes] =>
        if name = "CRC8_STREAM".toList then some (issuedBy a (crc8Stream bytes))
        else if name = "CRC16_STREAM".toList then some (issuedBy a (crc16Stream bytes))
        else if name = "RECV".toList ∧ a = .host then some (issuedBy a (recv bytes))
        else none
      | _ => none

/-- One agent's line without its comment: a mnemonic, then operands apart from each other by commas. An empty line issues nothing. -/
def assembleFor (a : Agent) (text : List Char) : Option (List Event) :=
  match text with
  | [] => some []
  | _ => assembleCommand a (text.takeWhile (· != ' ')) (operandTexts (text.dropWhile (· != ' ')))

/-- One line of a program (R85): `T:` marks the transport, and a semicolon starts a comment. -/
def assembleLine (line : List Char) : Option (List Event) :=
  match trim (line.takeWhile (· != ';')) with
  | 'T' :: ':' :: rest => assembleFor .transport (trim rest)
  | text => assembleFor .host text

/-- A program: its lines' events, top to bottom (R85). -/
def assemble : List (List Char) → Option (List Event)
  | [] => some []
  | line :: rest => do
    let es ← assembleLine line
    let more ← assemble rest
    return es ++ more

/-! ## The printer -/

/-- A hex digit of a value below 16. -/
def hexDigit (n : Nat) : Char := if n < 10 then Char.ofNat (48 + n) else Char.ofNat (55 + n)

/-- An octet as two hex digits. -/
def printOctet (b : Byte) : List Char := [hexDigit (b.toNat / 16), hexDigit (b.toNat % 16)]

/-- Texts with a separator between each two. -/
def joinWith (sep : List Char) : List (List Char) → List Char
  | [] => []
  | [w] => w
  | w :: ws => w ++ sep ++ joinWith sep ws

/-- An operand in the syntax of R85. -/
def printOperand : Operand → List Char
  | .bytes data => '[' :: joinWith [' '] (data.map printOctet) ++ [']']
  | .nat n      => Nat.toDigits 10 n
  | .uint8 b    => '0' :: 'x' :: printOctet b
  | .bool p     => if p then ['1'] else ['0']

/-- A command as `MNEMONIC operand, operand, ...` (R85). -/
def printInstr (i : Instr) : List Char :=
  match operandsOf i with
  | [] => (mnemonic (opcodeOf i)).toList
  | ops => (mnemonic (opcodeOf i)).toList ++ ' ' :: joinWith [',', ' '] (ops.map printOperand)

/-- A program line (R85). -/
def printLine (a : Agent) (i : Instr) : List Char :=
  match a with
  | .host => printInstr i
  | .transport => 'T' :: ':' :: ' ' :: printInstr i

end Sys2Proof.Machine
end

