-- ==== Sys2Proof/WellFormed.lean ====
section
/-! DEFINITION. The checks on plain data: issued commands (30_encoding.md R70, R73), the transport's discipline (20_memory.md R62),
the canonical form of the command set of a configuration (00_scope.md R7), and the field table of a ParseResult (R81).
Every term of `Instr` is well-formed: its types are R73's. -/

namespace Sys2Proof

/-- The operands are the typed list the code selects (R70, R73). A code that is not in the table selects no list (R82), so nothing
is asked of what stands beside it. -/
def Command.wf (c : Command) : Bool :=
  match lookupOpcode c.op with
  | some m => c.operands.map Operand.type == m.signature
  | none => true

/-- An event the agents can issue: a well-formed command, and from the transport only RX_APPEND (R62). -/
def Event.wf : Event → Bool
  | .command .host c      => c.wf
  | .command .transport c => c.wf && lookupOpcode c.op == some .rxAppend
  | .reset                => true

/-- A list of command ids is strictly rising: the canonical form of a finite set (R7, notes/assumptions/7.md). -/
def strictlyRising : List Half → Bool
  | a :: b :: rest => decide (a.toNat < b.toNat) && strictlyRising (b :: rest)
  | _ => true

/-- `KNOWN_CMDS` is in canonical form, so that equal sets are equal data. -/
def Cfg.wf (c : Cfg) : Bool := strictlyRising c.knownCmds

namespace Machine

/-- Which fields each code carries, and that a carried payload has `len` bytes (the table of R81). -/
def ParseResult.wf (r : ParseResult) : Bool :=
  match r.code, r.start, r.len, r.cmd, r.seq, r.payload with
  | .frame, some _, some l, some _, some _, some p             => p.length == l
  | .noStartByte, none, none, none, none, none                 => true
  | .incomplete, some _, _, none, none, none                   => true
  | .headerCrcMismatch, some _, none, none, none, none         => true
  | .bodyCrcMismatch, some _, some _, none, none, none         => true
  | .unknownCommand, some _, some l, some _, some _, some p    => p.length == l
  | _, _, _, _, _, _                                           => false

end Machine

end Sys2Proof
end

