-- ==== Sys2Proof/Safety.lean ====
section
/-! DEFINITION. The terms the statements are made in: what holds of every state of a safe run (10_state.md R28, R30), a legal
configuration (41_checksum.md R113, 70_reset_and_hazards.md R242), and runs of several commands or events. -/

namespace Sys2Proof.Machine

/-- `|RXBUF|` does not exceed `RXBUF_CAP` (R30). -/
def State.rxbufFits (s : State) : Prop := withinCapacity s.cfg.rxbufCap s.rxbuf.length = true

/-- The reserved bits of FAULT read 0 (R28). -/
def State.reservedFaultClear (s : State) : Prop := s.fault &&& reservedFaultBits = 0

/-- The invariant of the block's state: R30's bound and R28's reserved bits. -/
structure State.Inv (s : State) : Prop where
  rxbuf : s.rxbufFits
  fault : s.reservedFaultClear

/-- Every issued event is one the agents can issue (R62, R73). -/
def State.Issuable (s : State) : Prop := ∀ e ∈ s.inbox, e.wf = true

/-- No fault has been raised since reset: the postcondition of a run without faults (R214). -/
def State.faultFree (s : State) : Prop := s.fault = 0

/-- `data` with bit `k % 8` of byte `k / 8` flipped. -/
def flipBit (data : List Byte) (k : Nat) : List Byte := data.modify (k / 8) (· ^^^ ((1 : Byte) <<< (k % 8)))

/-- The requirement of R113 on the CRC-8 parameters: every single-bit error in a 4-byte header changes its CRC-8. -/
def HeaderSensitive (c : Cfg) : Prop :=
  ∀ h : List Byte, h.length = 4 → ∀ k < 32, crc8 c (flipBit h k) 4 ≠ crc8 c h 4

/-- A legal configuration (R113, R242): its CRC-8 meets R113. The step does not enforce it (notes/assumptions/6.md). -/
structure LegalCfg (c : Cfg) : Prop where
  sensitive : HeaderSensitive c

/-- Runs commands one after another, with nothing in between, stopping at the first stop. -/
def execAll : List Instr → State → Host.Outcome State Fault Refusal
  | [], s => .next s
  | i :: is, s =>
    match exec i s with
    | .next t => execAll is t
    | .fault f => .fault f
    | .refused r => .refused r

/-- The responses of commands run one after another, up to the first stop. -/
def responsesOf : List Instr → State → List Response
  | [], _ => []
  | i :: is, s =>
    match exec i s with
    | .next t => t.response.toList ++ responsesOf is t
    | .fault _ => []
    | .refused _ => []

/-- The bytes a list of commands streams into ACC8 (R104). -/
def streamed8 (is : List Instr) : List Byte :=
  is.filterMap (fun i => match i with
    | .crc8Byte b => some b
    | _ => none)

/-- The bytes a list of commands streams into ACC16 (R107). -/
def streamed16 (is : List Instr) : List Byte :=
  is.filterMap (fun i => match i with
    | .crc16Byte b => some b
    | _ => none)

end Sys2Proof.Machine
end

