-- ==== Sys2Proof/Certificates/Slice0/Obligations.lean ====
section
/-! DEFINITION. The statements for the provers, in the order of OBLIGATIONS.json. `[D<n>]` in a docstring names the decision of
spec/92_eei_decisions.md that the cited rule itself names; `log <n>` names notes/assumptions/<n>.md. -/

open Sys2Proof Sys2Proof.Machine

/-! ## Encoding -/

/-- The 17 codes of the table with their operand lists, every other code illegal, and the units the `U` field names, `U = 5..15` reserved:
read from R71 and R72 [D2]. That an illegal code is illegal whatever operands stand beside it is the model's reading (log 8). -/
def Obligations.CommandCodesDecodeToTheirRows : Prop :=
  (∀ data n, decode ⟨0x01, [.bytes data, .nat n]⟩ = .ok (.crc8 data n)) ∧
  (∀ data n, decode ⟨0x02, [.bytes data, .nat n]⟩ = .ok (.crc16 data n)) ∧
  decode ⟨0x03, []⟩ = .ok .crc8Init ∧
  (∀ b, decode ⟨0x04, [.uint8 b]⟩ = .ok (.crc8Byte b)) ∧
  decode ⟨0x05, []⟩ = .ok .crc8Read ∧
  decode ⟨0x06, []⟩ = .ok .crc16Init ∧
  (∀ b, decode ⟨0x07, [.uint8 b]⟩ = .ok (.crc16Byte b)) ∧
  decode ⟨0x08, []⟩ = .ok .crc16Read ∧
  (∀ p q c0 c1, decode ⟨0x10, [.bytes p, .uint8 q, .uint8 c0, .uint8 c1]⟩ = .ok (.build p q c0 c1)) ∧
  (∀ buf, decode ⟨0x20, [.bytes buf]⟩ = .ok (.feed buf)) ∧
  (∀ chunk, decode ⟨0x21, [.bytes chunk]⟩ = .ok (.rxAppend chunk)) ∧
  decode ⟨0x22, []⟩ = .ok .rxParse ∧
  decode ⟨0x23, []⟩ = .ok .rxClear ∧
  (∀ p, decode ⟨0x30, [.bytes p]⟩ = .ok (.decodeCoords p)) ∧
  (∀ r1 r2 r3 r4 r7, decode ⟨0x31, [.bool r1, .bool r2, .bool r3, .bool r4, .bool r7]⟩ = .ok (.encodeVuln r1 r2 r3 r4 r7)) ∧
  (∀ v, decode ⟨0x32, [.uint8 v]⟩ = .ok (.decodeVuln v)) ∧
  decode ⟨0x40, []⟩ = .ok .status ∧
  (∀ op ops, op ∉ [0x01, 0x02, 0x03, 0x04, 0x05, 0x06, 0x07, 0x08, 0x10, 0x20, 0x21, 0x22, 0x23, 0x30, 0x31, 0x32, 0x40] →
    decode ⟨op, ops⟩ = .error .illegalOp) ∧
  (∀ op : Byte, op.toNat = 16 * (unitField op).toNat + (functionField op).toNat) ∧
  unitOf 0 = some .checksumEngine ∧ unitOf 1 = some .frameBuilder ∧ unitOf 2 = some .frameParser ∧
  unitOf 3 = some .payloadDecoder ∧ unitOf 4 = some .statusUnit ∧ (∀ u : BitVec 4, 5 ≤ u.toNat → unitOf u = none) ∧
  (∀ op ops, 5 ≤ (unitField op).toNat → decode ⟨op, ops⟩ = .error .illegalOp)

/-- A pair decodes to a command exactly when it is that command's encoding: no operand value is lost and none is confused with
another. The pairing of code and operands is the model's (log 8) over R71 and R73. -/
def Obligations.DecodeInvertsEncode : Prop :=
  ∀ (c : Command) (i : Instr), decode c = .ok i ↔ c = encode i

/-- Every command of either agent, printed as a program line of R85, assembles to exactly that command. The printer and what the
text leaves open are the model's (log 10). -/
def Obligations.ProgramTextAssemblesToItsCommand : Prop :=
  ∀ (a : Agent) (i : Instr), assembleLine (printLine a i) = some [.command a (encode i)]

/-! ## The step -/

/-- A step performs the decoded command at the head of the order, whoever issued it (R60, R69), and only takes it off the list of
issued events (log 2). -/
def Obligations.StepRunsDecodedCommand : Prop :=
  ∀ (s : State) (a : Agent) (c : Command) (rest : List Event) (i : Instr),
    s.inbox = .command a c :: rest → decode c = .ok i → step s = exec i { s with inbox := rest }

/-- A code outside the table, or a decoder code while the decoder is absent, raises ILLEGAL_OP and changes nothing else: read from R82
and R190 [D2, D21]. That it does so whatever operands stand beside the code is the model's reading (log 8). -/
def Obligations.IllegalCodesRaiseIllegalOp : Prop :=
  ∀ (s : State) (a : Agent) (op : Byte) (ops : List Operand) (rest : List Event),
    s.inbox = .command a ⟨op, ops⟩ :: rest →
    (op ∉ [0x01, 0x02, 0x03, 0x04, 0x05, 0x06, 0x07, 0x08, 0x10, 0x20, 0x21, 0x22, 0x23, 0x30, 0x31, 0x32, 0x40] ∨
      (op ∈ [0x30, 0x31, 0x32] ∧ s.cfg.hasPayloadDecoder = false)) →
    step s = .next { s with inbox := rest, fault := s.fault ||| 0x01, response := some (.err .illegalOp) }

/-- The host's reset puts every piece of state at its reset value and keeps the configuration, read from R35, and the machine's own reset state
is such a state [D15, D29]. That the waiting events stay issued is the model's choice (log 9). -/
def Obligations.ResetPutsEveryPieceOfState : Prop :=
  (∀ (s : State) (rest : List Event), s.inbox = .reset :: rest →
    ∃ t, step s = .next t ∧ t.acc8 = none ∧ t.acc16 = none ∧ t.rxbuf = [] ∧ t.fault = 0 ∧ t.cfg = s.cfg ∧ t.inbox = rest) ∧
  (State.reset.acc8 = none ∧ State.reset.acc16 = none ∧ State.reset.rxbuf = [] ∧ State.reset.fault = 0 ∧
    State.reset.cfg = Config.supplied) ∧
  step State.reset = .next State.reset

/-- With every issued event one the agents can issue (R62, R73), a step never stops the machine, and the waiting events stay so:
no read leaves its sequence (R59) and no frame content stops anything (R210). Which pairs cannot be issued is the model's reading of R73 (log 8). -/
def Obligations.IssuableStepNeverStops : Prop :=
  ∀ s : State, s.Issuable → ∃ t, step s = .next t ∧ t.Issuable

/-! ## The checksum engine -/

/-- The CRC functions of R100, from the tables of the configuration [D3, D4]. -/
def Obligations.CrcFunctionsFollowTheTables : Prop :=
  ∀ c : Cfg,
    (∀ acc b : Byte, c.crc8Table[(acc ^^^ b).toNat]? = some (step8 c acc b)) ∧
    (c.crc16Form = .reflected → ∀ (acc : Half) (b : Byte), ∃ v : Half,
      c.crc16Table[(acc.toNat ^^^ b.toNat) % 256]? = some v ∧ step16 c acc b = (acc >>> 8) ^^^ v) ∧
    (c.crc16Form = .normal → ∀ (acc : Half) (b : Byte), ∃ v : Half,
      c.crc16Table[((acc.toNat / 256) ^^^ b.toNat) % 256]? = some v ∧ step16 c acc b = (acc <<< 8) ^^^ v) ∧
    (∀ (data : List Byte) (n : Nat), n ≤ data.length →
      crc8 c data n = .ok ((data.take n).foldl (step8 c) c.crc8Init ^^^ c.crc8Xorout)) ∧
    (∀ (data : List Byte) (n : Nat), n ≤ data.length →
      crc16 c data n = .ok ((data.take n).foldl (step16 c) c.crc16Init ^^^ c.crc16Xorout))

/-- CRC8 and CRC16 (R101, R102): the code octet, the result, and the CRC_LENGTH fault [D5]. -/
def Obligations.WholeBufferCrcCommands : Prop :=
  ∀ (data : List Byte) (n : Nat) (s : State),
    ((encode (.crc8 data n)).op = 0x01 ∧ (encode (.crc16 data n)).op = 0x02) ∧
    (n ≤ data.length →
      Sys2Proof.Machine.exec (.crc8 data n) s = .next { s with response := some (.ok (.uint8
        ((data.take n).foldl (step8 s.cfg) s.cfg.crc8Init ^^^ s.cfg.crc8Xorout))) } ∧
      Sys2Proof.Machine.exec (.crc16 data n) s = .next { s with response := some (.ok (.uint16
        ((data.take n).foldl (step16 s.cfg) s.cfg.crc16Init ^^^ s.cfg.crc16Xorout))) }) ∧
    (data.length < n →
      Sys2Proof.Machine.exec (.crc8 data n) s = .next { s with fault := s.fault ||| 0x02, response := some (.err .crcLength) } ∧
      Sys2Proof.Machine.exec (.crc16 data n) s = .next { s with fault := s.fault ||| 0x02, response := some (.err .crcLength) })

/-- CRC8_INIT, CRC8_BYTE and CRC8_READ (R103, R104, R105): the code octets and the effects [D6]. -/
def Obligations.StreamingCrc8Commands : Prop :=
  ∀ s : State,
    ((encode .crc8Init).op = 0x03 ∧ (∀ b, (encode (.crc8Byte b)).op = 0x04) ∧ (encode .crc8Read).op = 0x05) ∧
    Sys2Proof.Machine.exec .crc8Init s = .next { s with acc8 := some s.cfg.crc8Init, response := some (.ok .unit) } ∧
    (∀ acc b : Byte, s.acc8 = some acc →
      Sys2Proof.Machine.exec (.crc8Byte b) s = .next { s with
        acc8 := some (step8 s.cfg acc b), response := some (.ok (.uint8 (step8 s.cfg acc b ^^^ s.cfg.crc8Xorout))) }) ∧
    (∀ acc : Byte, s.acc8 = some acc →
      Sys2Proof.Machine.exec .crc8Read s = .next { s with response := some (.ok (.uint8 (acc ^^^ s.cfg.crc8Xorout))) }) ∧
    (∀ b : Byte, s.acc8 = none →
      Sys2Proof.Machine.exec (.crc8Byte b) s = .next { s with fault := s.fault ||| 0x10, response := some (.err .accUninit) } ∧
      Sys2Proof.Machine.exec .crc8Read s = .next { s with fault := s.fault ||| 0x10, response := some (.err .accUninit) })

/-- CRC16_INIT, CRC16_BYTE and CRC16_READ (R106, R107, R108): the code octets and the effects [D6]. -/
def Obligations.StreamingCrc16Commands : Prop :=
  ∀ s : State,
    ((encode .crc16Init).op = 0x06 ∧ (∀ b, (encode (.crc16Byte b)).op = 0x07) ∧ (encode .crc16Read).op = 0x08) ∧
    Sys2Proof.Machine.exec .crc16Init s = .next { s with acc16 := some s.cfg.crc16Init, response := some (.ok .unit) } ∧
    (∀ (acc : Half) (b : Byte), s.acc16 = some acc →
      Sys2Proof.Machine.exec (.crc16Byte b) s = .next { s with
        acc16 := some (step16 s.cfg acc b), response := some (.ok (.uint16 (step16 s.cfg acc b ^^^ s.cfg.crc16Xorout))) }) ∧
    (∀ acc : Half, s.acc16 = some acc →
      Sys2Proof.Machine.exec .crc16Read s = .next { s with response := some (.ok (.uint16 (acc ^^^ s.cfg.crc16Xorout))) }) ∧
    (∀ b : Byte, s.acc16 = none →
      Sys2Proof.Machine.exec (.crc16Byte b) s = .next { s with fault := s.fault ||| 0x10, response := some (.err .accUninit) } ∧
      Sys2Proof.Machine.exec .crc16Read s = .next { s with fault := s.fault ||| 0x10, response := some (.err .accUninit) })

/-- Streaming equivalence: after CRC8_INIT, with any other commands between the bytes but no further CRC8_INIT, CRC8_READ answers the
CRC-8 of the bytes streamed, and the same for the CRC-16. The spec derives this itself (41_checksum.md, "Streaming equivalence"). -/
def Obligations.StreamingEqualsWholeBufferCrc : Prop :=
  ∀ (is : List Instr) (s : State),
    (.crc8Init ∉ is → ∃ t v, execAll (.crc8Init :: is) s = .next t ∧
      crc8 s.cfg (streamed8 is) (streamed8 is).length = .ok v ∧
      Sys2Proof.Machine.exec .crc8Read t = .next { t with response := some (.ok (.uint8 v)) }) ∧
    (.crc16Init ∉ is → ∃ t v, execAll (.crc16Init :: is) s = .next t ∧
      crc16 s.cfg (streamed16 is) (streamed16 is).length = .ok v ∧
      Sys2Proof.Machine.exec .crc16Read t = .next { t with response := some (.ok (.uint16 v)) })

/-- Determinism: the CRC commands depend on the configuration and the first `n` bytes alone: on no state, no history and no byte
beyond `n` (R112). -/
def Obligations.CrcDependsOnFirstBytesOnly : Prop :=
  ∀ (data data' : List Byte) (n : Nat) (s s' : State), n ≤ data.length → n ≤ data'.length → data.take n = data'.take n →
    s.cfg = s'.cfg →
    ∃ t t' u u', Sys2Proof.Machine.exec (.crc8 data n) s = .next t ∧ Sys2Proof.Machine.exec (.crc8 data' n) s' = .next t' ∧
      t.response = t'.response ∧
      Sys2Proof.Machine.exec (.crc16 data n) s = .next u ∧ Sys2Proof.Machine.exec (.crc16 data' n) s' = .next u' ∧
      u.response = u'.response

/-- The reference CRC-8 instance meets the single-bit requirement of R113: every 4-byte header, every one of the 32 single-bit errors.
The instance is general knowledge, as the spec marks it (41_checksum.md section 5; log 11). -/
def Obligations.ReferenceCrc8DetectsSingleBitErrors : Prop :=
  ∀ (b0 b1 b2 b3 : Byte) (k : Nat), k < 32 →
    crc8 referenceCfg (flipBit [b0, b1, b2, b3] k) 4 ≠ crc8 referenceCfg [b0, b1, b2, b3] 4

/-- Under a legal configuration no single-bit error in the header bytes 1 to 3 of a built frame is accepted: the parser answers
HEADER_CRC_MISMATCH. It follows from R113 and R150. Legality is a premise here, the step does not enforce it (log 6). -/
def Obligations.SingleBitHeaderErrorIsRejected : Prop :=
  ∀ (s : State) (payload : List Byte) (seq c0 c1 : Byte) (f : List Byte) (k : Nat), LegalCfg s.cfg →
    payload.length ≤ 65535 → buildFrame s.cfg payload seq c0 c1 = .ok f → 8 ≤ k → k < 32 →
    Sys2Proof.Machine.exec (.feed (flipBit f k)) s =
      .next { s with response := some (.ok (.parse { code := .headerCrcMismatch, start := some 0 })) }

/-! ## The frame builder -/

/-- BUILD (R130): its code octet, the frame byte by byte in the order of the rule, its length, the span of each checksum (R79, R131), and the
BUILD_LENGTH fault [D7]. -/
def Obligations.BuildAnswersTheFrame : Prop :=
  ∀ (payload : List Byte) (seq c0 c1 : Byte) (s : State),
    (encode (.build payload seq c0 c1)).op = 0x10 ∧
    (payload.length ≤ 65535 → ∃ (f header : List Byte) (h : Byte) (k : Half),
      Sys2Proof.Machine.exec (.build payload seq c0 c1) s = .next { s with response := some (.ok (.bytes f)) } ∧
      header = [0xA5, BitVec.ofNat 8 (payload.length % 256), BitVec.ofNat 8 (payload.length / 256), seq] ∧
      crc8 s.cfg header 4 = .ok h ∧
      crc16 s.cfg (header ++ [h, c1, c0] ++ payload) (7 + payload.length) = .ok k ∧
      f = header ++ [h, c1, c0] ++ payload ++ [BitVec.ofNat 8 (k.toNat % 256), BitVec.ofNat 8 (k.toNat / 256)] ∧
      f.length = 9 + payload.length) ∧
    (65535 < payload.length →
      Sys2Proof.Machine.exec (.build payload seq c0 c1) s =
        .next { s with fault := s.fault ||| 0x04, response := some (.err .buildLength) })

/-! ## The parser -/

/-- The seven steps of R150, each with the shape of buffer it decides: only the first 0xA5 counts (R151), 7 bytes are needed (R152), the
header CRC comes before the length is used (R153), trailing bytes do not matter (R154), the lookup comes before the CRC-16 (R155), the
CRC-16 is read little-endian (R156). It is defined for every buffer. -/
def Obligations.ParseFollowsTheSevenSteps : Prop :=
  ∀ c : Cfg,
    (∀ buf : List Byte, ∃ r, parse c buf = .ok r) ∧
    (∀ buf : List Byte, (∀ b ∈ buf, b ≠ 0xA5) → parse c buf = .ok { code := .noStartByte }) ∧
    (∀ g : List Byte, (∀ b ∈ g, b ≠ 0xA5) →
      (∀ rest : List Byte, rest.length < 6 → parse c (g ++ 0xA5 :: rest) = .ok { code := .incomplete, start := some g.length }) ∧
      (∀ (l0 l1 seq hcrc i0 i1 : Byte) (tail : List Byte) (k : Byte), crc8 c [0xA5, l0, l1, seq] 4 = .ok k →
        (k ≠ hcrc →
          parse c (g ++ 0xA5 :: l0 :: l1 :: seq :: hcrc :: i0 :: i1 :: tail) =
            .ok { code := .headerCrcMismatch, start := some g.length }) ∧
        (k = hcrc → tail.length < l0.toNat + 256 * l1.toNat + 2 →
          parse c (g ++ 0xA5 :: l0 :: l1 :: seq :: hcrc :: i0 :: i1 :: tail) =
            .ok { code := .incomplete, start := some g.length, len := some (l0.toNat + 256 * l1.toNat) }) ∧
        (k = hcrc → ∀ (p more : List Byte) (r0 r1 : Byte) (cmd rcrc body : Half),
          tail = p ++ r0 :: r1 :: more → p.length = l0.toNat + 256 * l1.toNat →
          cmd.toNat = i0.toNat + 256 * i1.toNat → rcrc.toNat = r0.toNat + 256 * r1.toNat →
          crc16 c (0xA5 :: l0 :: l1 :: seq :: hcrc :: i0 :: i1 :: p) (7 + p.length) = .ok body →
          (cmd ∉ c.knownCmds →
            parse c (g ++ 0xA5 :: l0 :: l1 :: seq :: hcrc :: i0 :: i1 :: tail) =
              .ok { code := .unknownCommand, start := some g.length, len := some p.length, cmd := some cmd, seq := some seq,
                    payload := some p }) ∧
          (cmd ∈ c.knownCmds → body ≠ rcrc →
            parse c (g ++ 0xA5 :: l0 :: l1 :: seq :: hcrc :: i0 :: i1 :: tail) =
              .ok { code := .bodyCrcMismatch, start := some g.length, len := some p.length }) ∧
          (cmd ∈ c.knownCmds → body = rcrc →
            parse c (g ++ 0xA5 :: l0 :: l1 :: seq :: hcrc :: i0 :: i1 :: tail) =
              .ok { code := .frame, start := some g.length, len := some p.length, cmd := some cmd, seq := some seq,
                    payload := some p }))))

/-- FEED, code 0x20, answers the parse of any buffer, raises nothing and writes nothing (R160). -/
def Obligations.FeedAnswersTheParse : Prop :=
  ∀ (buf : List Byte) (s : State), (encode (.feed buf)).op = 0x20 ∧ ∃ r, parse s.cfg buf = .ok r ∧
    Sys2Proof.Machine.exec (.feed buf) s = .next { s with response := some (.ok (.parse r)) }

/-- The fields each outcome carries (the table of R81), what `start` is, and that reading an absent field faults, whatever the field's
type [D13, D20]. -/
def Obligations.ParseResultCarriesItsFields : Prop :=
  (∀ (c : Cfg) (buf : List Byte) (r : ParseResult), parse c buf = .ok r →
    (∀ st, r.start = some st → buf[st]? = some 0xA5 ∧ ∀ i < st, buf[i]? ≠ some 0xA5) ∧
    (r.code = .frame ∨ r.code = .unknownCommand →
      ∃ p, r.start.isSome ∧ r.payload = some p ∧ r.len = some p.length ∧ r.cmd.isSome ∧ r.seq.isSome) ∧
    (r.code = .noStartByte → r.start = none ∧ r.len = none ∧ r.cmd = none ∧ r.seq = none ∧ r.payload = none) ∧
    (r.code = .incomplete → r.start.isSome ∧ r.cmd = none ∧ r.seq = none ∧ r.payload = none ∧
      (r.len.isSome → ∃ st b, r.start = some st ∧ buf[st + 4]? = some b ∧ crc8 c ((buf.drop st).take 4) 4 = .ok b)) ∧
    (r.code = .headerCrcMismatch → r.start.isSome ∧ r.len = none ∧ r.cmd = none ∧ r.seq = none ∧ r.payload = none) ∧
    (r.code = .bodyCrcMismatch → r.start.isSome ∧ r.len.isSome ∧ r.cmd = none ∧ r.seq = none ∧ r.payload = none)) ∧
  ∀ α : Type, readField (none : Option α) = .error .absentField ∧ ∀ v : α, readField (some v) = .ok v

/-- The consume table for every outcome of `parse`, read from R161 [D10, D11], and its bound, which the spec derives itself (the sentence
`consume(r, n) <= n` of R161, from R150). -/
def Obligations.ConsumeFollowsItsTable : Prop :=
  ∀ (c : Cfg) (buf : List Byte) (r : ParseResult), parse c buf = .ok r →
    ∃ k, consume c r buf.length = .ok k ∧ k ≤ buf.length ∧
      (r.code = .noStartByte → k = buf.length) ∧
      (r.code = .incomplete → c.incompletePolicy = .retain → r.start = some k) ∧
      (r.code = .incomplete → c.incompletePolicy = .drop → k = buf.length) ∧
      (r.code = .headerCrcMismatch ∨ r.code = .bodyCrcMismatch → ∃ st, r.start = some st ∧ k = st + 1) ∧
      (r.code = .unknownCommand ∨ r.code = .frame → ∃ st l, r.start = some st ∧ r.len = some l ∧ k = st + 9 + l)

/-- RX_PARSE, code 0x22, answers the parse of RXBUF and removes exactly the consumed front (R171) [D9]. -/
def Obligations.RxParseAnswersAndTrims : Prop :=
  ∀ s : State, (encode .rxParse).op = 0x22 ∧ ∃ r k, parse s.cfg s.rxbuf = .ok r ∧ consume s.cfg r s.rxbuf.length = .ok k ∧ k ≤ s.rxbuf.length ∧
    Sys2Proof.Machine.exec .rxParse s = .next { s with rxbuf := s.rxbuf.drop k, response := some (.ok (.parse r)) }

/-- RX_APPEND, code 0x21, appends the whole chunk or nothing (R170), and RX_CLEAR, code 0x23, empties the buffer (R174) [D9, D12]. -/
def Obligations.ReceiveBufferAppendAndClear : Prop :=
  ∀ (chunk : List Byte) (s : State),
    ((encode (.rxAppend chunk)).op = 0x21 ∧ (encode .rxClear).op = 0x23) ∧
    ((∀ cap, s.cfg.rxbufCap = .bytes cap → s.rxbuf.length + chunk.length ≤ cap) →
      Sys2Proof.Machine.exec (.rxAppend chunk) s = .next { s with
        rxbuf := s.rxbuf ++ chunk, response := some (.ok (.nat (s.rxbuf.length + chunk.length))) }) ∧
    (∀ cap, s.cfg.rxbufCap = .bytes cap → cap < s.rxbuf.length + chunk.length →
      Sys2Proof.Machine.exec (.rxAppend chunk) s = .next { s with fault := s.fault ||| 0x08, response := some (.err .rxOverflow) }) ∧
    Sys2Proof.Machine.exec .rxClear s = .next { s with rxbuf := [], response := some (.ok .unit) }

/-- The bytes of successive appends enter in order and chunk boundaries are not recorded: two appends are one append of both. The spec
derives this itself (20_memory.md section 4). -/
def Obligations.AppendsConcatenate : Prop :=
  ∀ (x y : List Byte) (s : State),
    (∀ cap, s.cfg.rxbufCap = .bytes cap → s.rxbuf.length + x.length + y.length ≤ cap) →
    ∃ t, execAll [.rxAppend x, .rxAppend y] s = .next t ∧ execAll [.rxAppend (x ++ y)] s = .next t ∧ t.rxbuf = s.rxbuf ++ x ++ y

/-- Short buffers: fewer than 7 bytes give INCOMPLETE when they hold 0xA5 and NO_START_BYTE otherwise. The spec derives this itself
(43_frame_parser.md section 4, correcting the source as 90_conflicts.md C2 says). -/
def Obligations.ShortBuffersAreIncompleteOrNoStart : Prop :=
  ∀ (c : Cfg) (buf : List Byte), buf.length < 7 →
    (0xA5 ∈ buf → ∃ st, parse c buf = .ok { code := .incomplete, start := some st } ∧ buf[st]? = some 0xA5) ∧
    (0xA5 ∉ buf → parse c buf = .ok { code := .noStartByte })

/-- Garbage without 0xA5 before a buffer moves `start` and changes nothing else. The spec derives this itself (43_frame_parser.md
section 4, narrowed as 90_conflicts.md C3 says). -/
def Obligations.GarbageMovesOnlyTheStart : Prop :=
  ∀ (c : Cfg) (g f : List Byte), (∀ b ∈ g, b ≠ 0xA5) →
    ∃ r, parse c f = .ok r ∧ parse c (g ++ f) = .ok { r with start := r.start.map (g.length + ·) }

/-- Round trip: the frame of BUILD, whatever follows it, parses to its own command, sequence and payload: FRAME for a known command and
UNKNOWN_COMMAND otherwise, for every configuration. The spec derives this itself (43_frame_parser.md section 4, 90_conflicts.md C1). -/
def Obligations.BuiltFrameParsesBack : Prop :=
  ∀ (payload : List Byte) (seq c0 c1 : Byte) (cmd : Half) (s : State) (more : List Byte),
    payload.length ≤ 65535 → cmd.toNat = 256 * c0.toNat + c1.toNat →
    ∃ f, Sys2Proof.Machine.exec (.build payload seq c0 c1) s = .next { s with response := some (.ok (.bytes f)) } ∧
      (cmd ∈ s.cfg.knownCmds → parse s.cfg (f ++ more) =
        .ok { code := .frame, start := some 0, len := some payload.length, cmd := some cmd, seq := some seq,
              payload := some payload }) ∧
      (cmd ∉ s.cfg.knownCmds → parse s.cfg (f ++ more) =
        .ok { code := .unknownCommand, start := some 0, len := some payload.length, cmd := some cmd, seq := some seq,
              payload := some payload })

/-- Several frames in one read come out one per RX_PARSE, in stream order, and what follows them stays in RXBUF. The spec derives this
itself (43_frame_parser.md section 3). -/
def Obligations.FramesComeOutInOrder : Prop :=
  ∀ (fs : List (List Byte)) (tail : List Byte) (s : State),
    (∀ f ∈ fs, ∃ payload seq c0 c1, payload.length ≤ 65535 ∧ buildFrame s.cfg payload seq c0 c1 = .ok f) →
    s.rxbuf = fs.flatten ++ tail →
    ∃ t, execAll (List.replicate fs.length .rxParse) s = .next t ∧ t.rxbuf = tail ∧
      (responsesOf (List.replicate fs.length .rxParse) s).length = fs.length ∧
      ∀ (j : Nat) (f : List Byte), fs[j]? = some f → ∃ r, parse s.cfg f = .ok r ∧
        (responsesOf (List.replicate fs.length .rxParse) s)[j]? = some (Response.ok (.parse r))

/-- Resynchronisation: when every 0xA5 of the garbage fails its header check, RX_PARSE answers HEADER_CRC_MISMATCH once per such byte and
then the frame, and RXBUF ends empty. The spec derives this itself (43_frame_parser.md section 4, second half of the garbage rule). -/
def Obligations.ReceivePathFindsFrameBehindGarbage : Prop :=
  ∀ (s : State) (h f payload : List Byte) (seq c0 c1 : Byte) (cmd : Half),
    payload.length ≤ 65535 → buildFrame s.cfg payload seq c0 c1 = .ok f →
    cmd.toNat = 256 * c0.toNat + c1.toNat → cmd ∈ s.cfg.knownCmds → s.rxbuf = h ++ f →
    (∀ i, h[i]? = some 0xA5 → ∃ v b, crc8 s.cfg (((h ++ f).drop i).take 4) 4 = .ok v ∧ (h ++ f)[i + 4]? = some b ∧ v ≠ b) →
    (∀ x ∈ responsesOf (List.replicate (h.count 0xA5) .rxParse) s,
      ∃ st, x = .ok (.parse { code := .headerCrcMismatch, start := some st })) ∧
    (responsesOf (List.replicate (h.count 0xA5) .rxParse) s).length = h.count 0xA5 ∧
    ∃ t st, execAll (List.replicate (h.count 0xA5 + 1) .rxParse) s = .next t ∧ t.rxbuf = [] ∧
      t.response = some (.ok (.parse { code := .frame, start := some st, len := some payload.length, cmd := some cmd,
                                       seq := some seq, payload := some payload }))

/-- Progress: repeating RX_PARSE with no appends reaches INCOMPLETE or NO_START_BYTE within `|RXBUF| + 1` commands. The spec derives this
itself (43_frame_parser.md section 4). -/
def Obligations.RepeatedRxParseReachesTheEnd : Prop :=
  ∀ s : State, ∃ n t r, n ≤ s.rxbuf.length ∧ execAll (List.replicate (n + 1) .rxParse) s = .next t ∧
    t.response = some (.ok (.parse r)) ∧ (r.code = .incomplete ∨ r.code = .noStartByte)

/-- The false-synchronisation wait: under Retain, a candidate at the front that needs more bytes than the buffer can hold stays
INCOMPLETE after any commands that do not clear the buffer. The spec derives the wait itself (70_reset_and_hazards.md section 3). -/
def Obligations.StalledCandidateNeverCompletes : Prop :=
  ∀ (s : State) (l cap : Nat) (is : List Instr), s.cfg.incompletePolicy = .retain → s.cfg.rxbufCap = .bytes cap → cap < 9 + l →
    parse s.cfg s.rxbuf = .ok { code := .incomplete, start := some 0, len := some l } → .rxClear ∉ is →
    ∃ t, execAll is s = .next t ∧
      Sys2Proof.Machine.exec .rxParse t =
        .next { t with response := some (.ok (.parse { code := .incomplete, start := some 0, len := some l })) }

/-! ## The payload decoder -/

/-- DECODE_COORDS, code 0x30, with the unit present (R191): the six entries by their bytes, the sentinel tested on the raw pair, the
clamp, and NOT_DECODED for a short payload; with the unit absent, ILLEGAL_OP (R190) [D21, D30]. -/
def Obligations.DecodeCoordsAnswersSixEntries : Prop :=
  ∀ (payload : List Byte) (s : State),
    (encode (.decodeCoords payload)).op = 0x30 ∧
    (s.cfg.hasPayloadDecoder = false →
      Sys2Proof.Machine.exec (.decodeCoords payload) s =
        .next { s with fault := s.fault ||| 0x01, response := some (.err .illegalOp) }) ∧
    (s.cfg.hasPayloadDecoder = true →
    (payload.length < 24 →
      Sys2Proof.Machine.exec (.decodeCoords payload) s = .next { s with response := some (.ok .notDecoded) }) ∧
    (24 ≤ payload.length → ∃ e : CoordSet,
      Sys2Proof.Machine.exec (.decodeCoords payload) s = .next { s with response := some (.ok (.coords e)) } ∧
      ∀ p ∈ [(0, e.r1), (1, e.r2), (2, e.r3), (3, e.r4), (4, e.r5), (5, e.r7)], ∃ b0 b1 b2 b3 : Byte,
        payload[4 * p.1]? = some b0 ∧ payload[4 * p.1 + 1]? = some b1 ∧
        payload[4 * p.1 + 2]? = some b2 ∧ payload[4 * p.1 + 3]? = some b3 ∧
        p.2.x.toNat = min (b0.toNat + 256 * b1.toNat) 2800 ∧ p.2.y.toNat = min (b2.toNat + 256 * b3.toNat) 1500 ∧
        (p.2.received = false ↔ b0.toNat + 256 * b1.toNat = 0 ∧ b2.toNat + 256 * b3.toNat = 0)))

/-- ENCODE_VULN, code 0x31, and DECODE_VULN, code 0x32, with the unit present (R195, R196), and ILLEGAL_OP with it absent (R190) [D21]. -/
def Obligations.VulnerabilityMaskCommands : Prop :=
  ∀ s : State,
    (∀ r1 r2 r3 r4 r7 : Bool, (encode (.encodeVuln r1 r2 r3 r4 r7)).op = 0x31) ∧ (∀ v : Byte, (encode (.decodeVuln v)).op = 0x32) ∧
    (s.cfg.hasPayloadDecoder = false → ∀ (r1 r2 r3 r4 r7 : Bool) (v : Byte),
      Sys2Proof.Machine.exec (.encodeVuln r1 r2 r3 r4 r7) s =
        .next { s with fault := s.fault ||| 0x01, response := some (.err .illegalOp) } ∧
      Sys2Proof.Machine.exec (.decodeVuln v) s =
        .next { s with fault := s.fault ||| 0x01, response := some (.err .illegalOp) }) ∧
    (s.cfg.hasPayloadDecoder = true →
    (∀ r1 r2 r3 r4 r7 : Bool, ∃ m : Byte,
      Sys2Proof.Machine.exec (.encodeVuln r1 r2 r3 r4 r7) s = .next { s with response := some (.ok (.uint8 m)) } ∧
      m.toNat = r1.toNat + 2 * r2.toNat + 4 * r3.toNat + 8 * r4.toNat + 16 * r7.toNat) ∧
    (∀ v : Byte,
      Sys2Proof.Machine.exec (.decodeVuln v) s = .next { s with response := some (.ok (.flags
        { r1 := v.toNat.testBit 0, r2 := v.toNat.testBit 1, r3 := v.toNat.testBit 2, r4 := v.toNat.testBit 3,
          r7 := v.toNat.testBit 4 })) }))

/-! ## Status, faults and frames -/

/-- STATUS, code 0x40 (R215) [D14]. -/
def Obligations.StatusReportsTheState : Prop :=
  ∀ s : State, (encode .status).op = 0x40 ∧ Sys2Proof.Machine.exec .status s = .next { s with response := some (.ok (.status
    { fault := s.fault, rxlen := s.rxbuf.length, acc8Valid := decide (s.acc8 ≠ none), acc16Valid := decide (s.acc16 ≠ none) })) }

/-- A faulting command is precise: it sets the one FAULT bit of its code and answers `ERR(k)`, and writes nothing else (R212), for every
command [D14]. -/
def Obligations.FaultsArePrecise : Prop :=
  ∀ (i : Instr) (s t : State) (k : FaultCode), Sys2Proof.Machine.exec i s = .next t → t.response = some (.err k) →
    t = { s with fault := s.fault ||| ((1 : Byte) <<< (k.number - 1)), response := some (.err k) }

/-- An issued pair meets each fault exactly under the conditions the fault table lists for it, and what is recorded is the code's FAULT
bit: read from R211 [D14]. That ILLEGAL_OP is raised whatever operands stand beside the code is the model's reading (log 8). -/
def Obligations.FaultsRaisedExactlyByTheTable : Prop :=
  (FaultCode.illegalOp.number = 1 ∧ FaultCode.crcLength.number = 2 ∧ FaultCode.buildLength.number = 3 ∧
    FaultCode.rxOverflow.number = 4 ∧ FaultCode.accUninit.number = 5) ∧
  ∀ (s t : State) (a : Agent) (c : Command) (rest : List Event), s.inbox = .command a c :: rest → step s = .next t →
    (t.response = some (.err .illegalOp) ↔
      c.op ∉ [0x01, 0x02, 0x03, 0x04, 0x05, 0x06, 0x07, 0x08, 0x10, 0x20, 0x21, 0x22, 0x23, 0x30, 0x31, 0x32, 0x40] ∨
      (c.op ∈ [0x30, 0x31, 0x32] ∧ s.cfg.hasPayloadDecoder = false)) ∧
    (t.response = some (.err .crcLength) ↔ ∃ data n,
      (c = ⟨0x01, [.bytes data, .nat n]⟩ ∨ c = ⟨0x02, [.bytes data, .nat n]⟩) ∧ data.length < n) ∧
    (t.response = some (.err .buildLength) ↔ ∃ p q c0 c1,
      c = ⟨0x10, [.bytes p, .uint8 q, .uint8 c0, .uint8 c1]⟩ ∧ 65535 < p.length) ∧
    (t.response = some (.err .rxOverflow) ↔ ∃ chunk cap,
      c = ⟨0x21, [.bytes chunk]⟩ ∧ s.cfg.rxbufCap = .bytes cap ∧ cap < s.rxbuf.length + chunk.length) ∧
    (t.response = some (.err .accUninit) ↔
      (s.acc8 = none ∧ ((∃ b, c = ⟨0x04, [.uint8 b]⟩) ∨ c = ⟨0x05, []⟩)) ∨
      (s.acc16 = none ∧ ((∃ b, c = ⟨0x07, [.uint8 b]⟩) ∨ c = ⟨0x08, []⟩))) ∧
    ∀ k, t.response = some (.err k) → t.fault = s.fault ||| ((1 : Byte) <<< (k.number - 1))

/-- FAULT bits are sticky: every step but the host's reset keeps each set bit, reset clears them, and whatever FAULT holds the block
performs every command as normal: FAULT changes no accumulator, no buffer and no response but that of STATUS (R214) [D14]. -/
def Obligations.FaultBitsAreSticky : Prop :=
  (∀ (s t : State), s.inbox.head? ≠ some .reset → step s = .next t → ∀ j : Nat, s.fault.getLsbD j = true → t.fault.getLsbD j = true) ∧
  (∀ (s t : State), s.inbox.head? = some .reset → step s = .next t → t.fault = 0) ∧
  ∀ (i : Instr) (s : State) (x : Byte), ∃ t u, Sys2Proof.Machine.exec i s = .next t ∧
    Sys2Proof.Machine.exec i { s with fault := x } = .next u ∧
    u.acc8 = t.acc8 ∧ u.acc16 = t.acc16 ∧ u.rxbuf = t.rxbuf ∧ (i ≠ .status → u.response = t.response)

/-- Frame: the commands that compute an answer from operands, or read state, leave ACC8, ACC16, RXBUF, the configuration and the waiting
events as they were, and FAULT but for the bit of the fault they answer. Read from the "State written: none" of R101, R102, R105,
R108, R130, R160, R191, R195, R196 and R215. -/
def Obligations.NonWritingCommandsFrame : Prop :=
  ∀ (i : Instr) (s t : State),
    (∃ data n, i = .crc8 data n ∨ i = .crc16 data n) ∨ i = .crc8Read ∨ i = .crc16Read ∨ (∃ p q c0 c1, i = .build p q c0 c1) ∨
      (∃ buf, i = .feed buf) ∨ (∃ p, i = .decodeCoords p) ∨ (∃ r1 r2 r3 r4 r7, i = .encodeVuln r1 r2 r3 r4 r7) ∨
      (∃ v, i = .decodeVuln v) ∨ i = .status →
    Sys2Proof.Machine.exec i s = .next t →
    t.acc8 = s.acc8 ∧ t.acc16 = s.acc16 ∧ t.rxbuf = s.rxbuf ∧ t.cfg = s.cfg ∧ t.inbox = s.inbox ∧
      (t.fault = s.fault ∨ ∃ k, t.response = some (.err k) ∧ t.fault = s.fault ||| ((1 : Byte) <<< (k.number - 1)))

/-- Frame: CRC8_INIT and CRC8_BYTE write ACC8 alone, CRC16_INIT and CRC16_BYTE write ACC16 alone, and no other command writes either;
an accumulator without a value gets its first from its INIT. Read from R23 and R24 [D6]. FAULT changes only when the command answers a fault, and then the accumulator does not. -/
def Obligations.AccumulatorsWrittenOnlyByTheirCommands : Prop :=
  ∀ (i : Instr) (s t : State), Sys2Proof.Machine.exec i s = .next t →
    ((∀ b, i ≠ .crc8Byte b) → i ≠ .crc8Init → t.acc8 = s.acc8) ∧
    ((∀ b, i ≠ .crc16Byte b) → i ≠ .crc16Init → t.acc16 = s.acc16) ∧
    (s.acc8 = none → i ≠ .crc8Init → t.acc8 = none) ∧ (s.acc16 = none → i ≠ .crc16Init → t.acc16 = none) ∧
    ((∃ b, i = .crc8Byte b ∨ i = .crc16Byte b) ∨ i = .crc8Init ∨ i = .crc16Init →
      t.rxbuf = s.rxbuf ∧ t.cfg = s.cfg ∧ t.inbox = s.inbox ∧
      (t.fault = s.fault ∨ (t.response = some (.err .accUninit) ∧ t.fault = s.fault ||| 0x10 ∧ t.acc8 = s.acc8 ∧ t.acc16 = s.acc16)))

/-- Frame: RX_APPEND, RX_PARSE and RX_CLEAR leave the accumulators, the configuration and the waiting events as they were, and FAULT but for
RX_OVERFLOW; no other command writes RXBUF (R30) [D9]. -/
def Obligations.ReceiveCommandsFrame : Prop :=
  ∀ (i : Instr) (s t : State), Sys2Proof.Machine.exec i s = .next t →
    ((∀ chunk, i ≠ .rxAppend chunk) → i ≠ .rxParse → i ≠ .rxClear → t.rxbuf = s.rxbuf) ∧
    ((∃ chunk, i = .rxAppend chunk) ∨ i = .rxParse ∨ i = .rxClear →
      t.acc8 = s.acc8 ∧ t.acc16 = s.acc16 ∧ t.cfg = s.cfg ∧ t.inbox = s.inbox ∧
      (t.fault = s.fault ∨ (t.response = some (.err .rxOverflow) ∧ t.fault = s.fault ||| 0x08 ∧ t.rxbuf = s.rxbuf)))

/-- RXBUF changes only by bytes put at its end or by the removal of a front part, whatever the step (R31). -/
def Obligations.RxbufOnlyAppendedOrTrimmed : Prop :=
  ∀ s t : State, step s = .next t → (∃ chunk, t.rxbuf = s.rxbuf ++ chunk) ∨ ∃ k, t.rxbuf = s.rxbuf.drop k

/-- The whole-buffer CRCs, the builder, the stateless parser and the decoder read no state and write none: their response depends on the
configuration and the operands alone, and only a fault they answer is recorded. R20 and R21 say it of CRC8, CRC16, BUILD and FEED; for
the decoder commands it is read from R191, R195 and R196. -/
def Obligations.StatelessCommandsReadNoState : Prop :=
  ∀ (i : Instr) (s s' : State), s.cfg = s'.cfg →
    (∃ data n, i = .crc8 data n ∨ i = .crc16 data n) ∨ (∃ p q c0 c1, i = .build p q c0 c1) ∨ (∃ buf, i = .feed buf) ∨
      (∃ p, i = .decodeCoords p) ∨ (∃ r1 r2 r3 r4 r7, i = .encodeVuln r1 r2 r3 r4 r7) ∨ (∃ v, i = .decodeVuln v) →
    ∃ t t', Sys2Proof.Machine.exec i s = .next t ∧ Sys2Proof.Machine.exec i s' = .next t' ∧ t.response = t'.response ∧
      t.acc8 = s.acc8 ∧ t.acc16 = s.acc16 ∧ t.rxbuf = s.rxbuf ∧ ((∀ k, t.response ≠ some (.err k)) → t.fault = s.fault)

/-- Issuing one of these commands twice in a row gives the response and state of issuing it once, when no fault is raised. The spec
derives this itself (20_memory.md section 3). -/
def Obligations.IdempotentCommands : Prop :=
  ∀ (i : Instr) (s t : State),
    (∃ data n, i = .crc8 data n ∨ i = .crc16 data n) ∨ i = .crc8Init ∨ i = .crc8Read ∨ i = .crc16Init ∨ i = .crc16Read ∨
      (∃ p q c0 c1, i = .build p q c0 c1) ∨ (∃ buf, i = .feed buf) ∨ i = .rxClear ∨ i = .status ∨
      (∃ p, i = .decodeCoords p) ∨ (∃ r1 r2 r3 r4 r7, i = .encodeVuln r1 r2 r3 r4 r7) ∨ (∃ v, i = .decodeVuln v) →
    Sys2Proof.Machine.exec i s = .next t → (∀ k, t.response ≠ some (.err k)) → Sys2Proof.Machine.exec i t = .next t

/-- No step changes the configuration: read from R32 and R240 [D29]. Holding it in State is the model's form (log 1). -/
def Obligations.StepKeepsTheConfiguration : Prop :=
  ∀ s t : State, step s = .next t → t.cfg = s.cfg

/-! ## The invariant -/

/-- RXBUF stays within its capacity and the reserved bits of FAULT stay clear, over every step (R28, R30). -/
def Obligations.StepKeepsTheStateInvariant : Prop :=
  ∀ s t : State, s.Inv → step s = .next t → t.Inv

/-- The reset state meets that invariant, for every configuration. -/
def Obligations.ResetMeetsTheStateInvariant : Prop :=
  State.reset.Inv ∧ ∀ c : Cfg, (State.resetWith c).Inv
end

