-- ==== Sys2Proof/Laws/State.lean ====
section
/-! SUPPORT. What each shared update does to each field of State: one lemma per field per update, so that no later proof unfolds a
record update. -/

namespace Sys2Proof.Machine

@[simp] theorem respond_cfg (v : Value) (s : State) : (respond v s).cfg = s.cfg := rfl
@[simp] theorem respond_acc8 (v : Value) (s : State) : (respond v s).acc8 = s.acc8 := rfl
@[simp] theorem respond_acc16 (v : Value) (s : State) : (respond v s).acc16 = s.acc16 := rfl
@[simp] theorem respond_rxbuf (v : Value) (s : State) : (respond v s).rxbuf = s.rxbuf := rfl
@[simp] theorem respond_fault (v : Value) (s : State) : (respond v s).fault = s.fault := rfl
@[simp] theorem respond_inbox (v : Value) (s : State) : (respond v s).inbox = s.inbox := rfl
@[simp] theorem respond_response (v : Value) (s : State) : (respond v s).response = some (.ok v) := rfl

@[simp] theorem raise_cfg (k : FaultCode) (s : State) : (raise k s).cfg = s.cfg := rfl
@[simp] theorem raise_acc8 (k : FaultCode) (s : State) : (raise k s).acc8 = s.acc8 := rfl
@[simp] theorem raise_acc16 (k : FaultCode) (s : State) : (raise k s).acc16 = s.acc16 := rfl
@[simp] theorem raise_rxbuf (k : FaultCode) (s : State) : (raise k s).rxbuf = s.rxbuf := rfl
@[simp] theorem raise_fault (k : FaultCode) (s : State) : (raise k s).fault = recordFault s.fault k := rfl
@[simp] theorem raise_inbox (k : FaultCode) (s : State) : (raise k s).inbox = s.inbox := rfl
@[simp] theorem raise_response (k : FaultCode) (s : State) : (raise k s).response = some (.err k) := rfl

@[simp] theorem hostReset_cfg (s : State) : (hostReset s).cfg = s.cfg := rfl
@[simp] theorem hostReset_acc8 (s : State) : (hostReset s).acc8 = none := rfl
@[simp] theorem hostReset_acc16 (s : State) : (hostReset s).acc16 = none := rfl
@[simp] theorem hostReset_rxbuf (s : State) : (hostReset s).rxbuf = [] := rfl
@[simp] theorem hostReset_fault (s : State) : (hostReset s).fault = 0 := rfl
@[simp] theorem hostReset_inbox (s : State) : (hostReset s).inbox = s.inbox := rfl
@[simp] theorem hostReset_response (s : State) : (hostReset s).response = none := rfl

@[simp] theorem resetWith_cfg (c : Cfg) : (State.resetWith c).cfg = c := rfl
@[simp] theorem resetWith_rxbuf (c : Cfg) : (State.resetWith c).rxbuf = [] := rfl
@[simp] theorem resetWith_fault (c : Cfg) : (State.resetWith c).fault = 0 := rfl

/-- A decoder command answers its value, or is illegal: nothing else (R190). -/
theorem respondFromDecoder_cases (v : Value) (s : State) :
    (s.cfg.hasPayloadDecoder = true ∧ respondFromDecoder v s = respond v s) ∨
    (s.cfg.hasPayloadDecoder = false ∧ respondFromDecoder v s = raise .illegalOp s) := by
  cases h : s.cfg.hasPayloadDecoder <;> simp [respondFromDecoder, h]

/-- Recording a fault keeps every bit already set (R214). -/
theorem recordFault_keeps (fault : Byte) (k : FaultCode) : fault &&& recordFault fault k = fault := by
  ext i
  simp [recordFault]
  intro h
  simp [h]

/-- No fault code has a reserved bit (R28). -/
theorem recordFault_reserved (fault : Byte) (k : FaultCode) :
    recordFault fault k &&& reservedFaultBits = fault &&& reservedFaultBits := by
  cases k <;> simp [recordFault, FaultCode.bit, FaultCode.number, reservedFaultBits, BitVec.and_or_distrib_right]

@[simp] theorem except_ok_bind {ε α β : Type} (v : α) (f : α → Except ε β) : (Except.ok v >>= f) = f v := rfl
@[simp] theorem except_error_bind {ε α β : Type} (e : ε) (f : α → Except ε β) : (Except.error e >>= f) = .error e := rfl
@[simp] theorem except_pure {ε α : Type} (v : α) : (pure v : Except ε α) = .ok v := rfl

@[simp] theorem complete_ok {α : Type} (v : α) (k : α → State) : complete (.ok v) k = .next (k v) := rfl

/-- A completed command answers a next state exactly when its guarded computation found a value. -/
theorem complete_next_iff {α : Type} (r : Except Fault α) (k : α → State) (t : State) :
    complete r k = .next t ↔ ∃ v, r = .ok v ∧ t = k v := by
  cases r with
  | ok v => simp [complete, eq_comm]
  | error f => simp [complete]

@[simp] theorem withinCapacity_unbounded (n : Nat) : withinCapacity .unbounded n = true := rfl
@[simp] theorem withinCapacity_bytes (cap n : Nat) : withinCapacity (.bytes cap) n = decide (n ≤ cap) := rfl

/-- A buffer fits when it is within every number the capacity can be (R30). -/
theorem withinCapacity_iff (c : Capacity) (n : Nat) : withinCapacity c n = true ↔ ∀ cap, c = .bytes cap → n ≤ cap := by
  cases c <;> simp

/-- A shorter buffer fits where a longer one does. -/
theorem withinCapacity_mono {c : Capacity} {m n : Nat} (h : m ≤ n) (hn : withinCapacity c n = true) :
    withinCapacity c m = true := by
  cases c with
  | unbounded => rfl
  | bytes cap => simp at *; omega

end Sys2Proof.Machine
end

