-- ==== Sys2Proof/Laws/Checksum.lean ====
section
/-! SUPPORT. What the guarded reads, the uint16 parts and the CRC functions answer (20_memory.md R59, 41_checksum.md R100). -/

namespace Sys2Proof.Machine

/-- A guarded read inside the sequence is that byte. -/
theorem readByte_of_lt {b : List Byte} {i : Nat} (h : i < b.length) : readByte b i = .ok b[i] := by
  simp [readByte, h]

/-- A guarded read behind a known front part. -/
@[simp] theorem readByte_append (g f : List Byte) (i : Nat) : readByte (g ++ f) (g.length + i) = readByte f i := by
  rw [readByte, readByte, List.getElem?_append_right (Nat.le_add_right _ _), Nat.add_sub_cancel_left]

@[simp] theorem readByte_cons_zero (a : Byte) (f : List Byte) : readByte (a :: f) 0 = .ok a := rfl
@[simp] theorem readByte_cons_succ (a : Byte) (f : List Byte) (i : Nat) : readByte (a :: f) (i + 1) = readByte f i := by
  simp [readByte]

/-- A guarded slice inside the sequence is that part. -/
theorem slice_of_le {b : List Byte} {i j : Nat} (hij : i ≤ j) (hj : j ≤ b.length) :
    slice b i j = .ok ((b.drop i).take (j - i)) := by
  simp [slice, hij, hj]

/-- A guarded slice behind a known front part. -/
@[simp] theorem slice_append (g f : List Byte) (i j : Nat) : slice (g ++ f) (g.length + i) (g.length + j) = slice f i j := by
  simp [slice, Nat.add_sub_add_left]

/-- The slice that is exactly a middle part. -/
theorem slice_middle (g p f : List Byte) : slice (g ++ (p ++ f)) g.length (g.length + p.length) = .ok p := by
  simp [slice]

/-- A front part whose length is known. -/
theorem slice_front {p f : List Byte} {n : Nat} (h : p.length = n) : slice (p ++ f) 0 n = .ok p := by
  subst h
  simpa using slice_middle [] p f

/-- The rest of a sequence. -/
theorem slice_rest {b : List Byte} {k : Nat} (h : k ≤ b.length) : slice b k b.length = .ok (b.drop k) := by
  rw [slice_of_le h le_rfl, ← List.length_drop, List.take_length]

/-- The bits of the number `le16` assembles: its second argument above its first (R9). -/
theorem le16_getLsbD (a b : Byte) (i : Nat) :
    (le16 a b).getLsbD i = (decide (i < 8) && a.getLsbD i || (decide (8 ≤ i ∧ i < 16) && b.getLsbD (i - 8))) := by
  simp only [le16, BitVec.getLsbD_or, BitVec.getLsbD_shiftLeft, BitVec.getLsbD_setWidth]
  by_cases h : i < 8
  · simp [h, show i < 16 by omega, show ¬ 8 ≤ i by omega]
  · by_cases h16 : i < 16
    · simp [h, h16, show 8 ≤ i by omega, show i - 8 < 16 by omega]
    · simp [h, h16]

/-- The number `le16` assembles. -/
theorem le16_toNat (a b : Byte) : (le16 a b).toNat = a.toNat + 256 * b.toNat := by
  have ha := a.isLt
  have hb := b.isLt
  have hor : a.toNat ||| b.toNat * 256 = a.toNat + 256 * b.toNat := by
    have := Nat.two_pow_add_eq_or_of_lt ha b.toNat
    rw [Nat.lor_comm, Nat.mul_comm, show (256 : Nat) = 2 ^ 8 from rfl, ← this]
    omega
  simp only [le16, BitVec.toNat_or, BitVec.toNat_shiftLeft, BitVec.toNat_setWidth, Nat.shiftLeft_eq]
  rw [Nat.mod_eq_of_lt (by omega), Nat.mod_eq_of_lt (a := b.toNat) (by omega), Nat.mod_eq_of_lt (by omega)]
  exact hor

@[simp] theorem le16_lo_hi (v : Half) : le16 (lo v) (hi v) = v := by
  apply BitVec.eq_of_getLsbD_eq
  intro i h16
  rw [le16_getLsbD]
  by_cases h : i < 8
  · simp [h, lo, show ¬ 8 ≤ i by omega]
  · simp [h, hi, h16, show 8 ≤ i by omega, show i - 8 < 8 by omega, show 8 + (i - 8) = i by omega]

@[simp] theorem lo_le16 (a b : Byte) : lo (le16 a b) = a := by
  apply BitVec.eq_of_getLsbD_eq
  intro i h
  simp [lo, le16_getLsbD, h, show ¬ 8 ≤ i by omega]

@[simp] theorem hi_le16 (a b : Byte) : hi (le16 a b) = b := by
  apply BitVec.eq_of_getLsbD_eq
  intro i h
  simp only [hi, BitVec.getLsbD_extractLsb', le16_getLsbD]
  simp [h, show 8 + i < 16 by omega]

/-- A uint16 whose number is known is `le16` of its two bytes. -/
theorem eq_le16 {v : Half} {a b : Byte} (h : v.toNat = a.toNat + 256 * b.toNat) : v = le16 a b :=
  BitVec.eq_of_toNat_eq (by rw [h, le16_toNat])

/-- The low byte as a number. -/
theorem lo_eq_ofNat (v : Half) : lo v = BitVec.ofNat 8 (v.toNat % 256) := by
  apply BitVec.eq_of_toNat_eq; simp [lo]

/-- The high byte as a number. -/
theorem hi_eq_ofNat (v : Half) : hi v = BitVec.ofNat 8 (v.toNat / 256) := by
  apply BitVec.eq_of_toNat_eq; simp [hi, Nat.shiftRight_eq_div_pow]

/-- A little-endian read behind a known front part. -/
@[simp] theorem readLe16_append (g f : List Byte) (i : Nat) : readLe16 (g ++ f) (g.length + i) = readLe16 f i := by
  simp [readLe16, Nat.add_assoc]

@[simp] theorem readLe16_cons_cons_zero (a b : Byte) (f : List Byte) : readLe16 (a :: b :: f) 0 = .ok (le16 a b) := rfl
@[simp] theorem readLe16_cons_succ (a : Byte) (f : List Byte) (i : Nat) : readLe16 (a :: f) (i + 1) = readLe16 f i := by
  simp [readLe16]

/-- A little-endian read with both bytes present answers. -/
theorem readLe16_of_lt {b : List Byte} {i : Nat} (h : i + 1 < b.length) : readLe16 b i = .ok (le16 b[i] b[i + 1]) := by
  simp [readLe16, readByte_of_lt (show i < b.length by omega), readByte_of_lt h]

/-- `crc8` is defined when `n <= |data|`, and is the CRC of the first `n` bytes (R100). -/
theorem crc8_of_le (c : Cfg) {data : List Byte} {n : Nat} (h : n ≤ data.length) : crc8 c data n = .ok (crc8Of c (data.take n)) := by
  rw [crc8, slice_of_le (Nat.zero_le n) h]
  simp

theorem crc16_of_le (c : Cfg) {data : List Byte} {n : Nat} (h : n ≤ data.length) :
    crc16 c data n = .ok (crc16Of c (data.take n)) := by
  rw [crc16, slice_of_le (Nat.zero_le n) h]
  simp

/-- The CRC of a whole sequence. -/
theorem crc8_length (c : Cfg) {data : List Byte} {n : Nat} (h : data.length = n) : crc8 c data n = .ok (crc8Of c data) := by
  subst h
  rw [crc8_of_le c le_rfl, List.take_length]

theorem crc16_length (c : Cfg) {data : List Byte} {n : Nat} (h : data.length = n) : crc16 c data n = .ok (crc16Of c data) := by
  subst h
  rw [crc16_of_le c le_rfl, List.take_length]

/-- The CRC-8 of a header of four bytes in view. -/
@[simp] theorem crc8_four (c : Cfg) (a b d e : Byte) : crc8 c [a, b, d, e] 4 = .ok (crc8Of c [a, b, d, e]) :=
  crc8_length c rfl

/-- One more byte advances the CRC by one update (R100). -/
theorem crc8Of_append_byte (c : Cfg) (data : List Byte) (b : Byte) :
    crc8Of c (data ++ [b]) = step8 c (data.foldl (step8 c) c.crc8Init) b ^^^ c.crc8Xorout := by
  simp [crc8Of]

theorem crc16Of_append_byte (c : Cfg) (data : List Byte) (b : Byte) :
    crc16Of c (data ++ [b]) = step16 c (data.foldl (step16 c) c.crc16Init) b ^^^ c.crc16Xorout := by
  simp [crc16Of]

end Sys2Proof.Machine
end

