-- ==== Sys2Proof/Laws/Decode.lean ====
section
/-! SUPPORT. The command code map is unambiguous, and the decoder inverts the encoder (30_encoding.md R71). -/

namespace Sys2Proof

/-- No two rows of the table have the same code. -/
theorem codes_distinct : Opcode.all.Pairwise (fun m k => m.code ≠ k.code) := by decide

theorem mem_all (m : Opcode) : m ∈ Opcode.all := by cases m <;> decide

/-- A row is found by its own code. -/
@[simp] theorem lookupOpcode_code (m : Opcode) : lookupOpcode m.code = some m := by cases m <;> decide

/-- A code finds a row exactly when it is that row's code. -/
theorem lookupOpcode_eq_some {op : Byte} {m : Opcode} : lookupOpcode op = some m ↔ op = m.code := by
  constructor
  · intro h
    unfold lookupOpcode at h
    have code := List.find?_some h
    simp only [beq_iff_eq] at code
    exact code.symm
  · rintro rfl; exact lookupOpcode_code m

/-- A code finds no row exactly when it is no row's code. -/
theorem lookupOpcode_eq_none {op : Byte} : lookupOpcode op = none ↔ ∀ m : Opcode, op ≠ m.code := by
  constructor
  · rintro h m rfl
    exact absurd h (by rw [lookupOpcode_code]; exact Option.some_ne_none m)
  · intro h
    cases hl : lookupOpcode op with
    | none => rfl
    | some m => exact absurd (lookupOpcode_eq_some.mp hl) (h m)

@[simp] theorem bindOperands_operandsOf (i : Instr) : bindOperands (opcodeOf i) (operandsOf i) = some i := by
  cases i <;> rfl

/-- Operand values bind to a command only as that command's own operand list. -/
theorem bindOperands_eq_some {m : Opcode} {ops : List Operand} {i : Instr} (h : bindOperands m ops = some i) :
    opcodeOf i = m ∧ operandsOf i = ops := by
  unfold bindOperands at h
  split at h <;> simp at h <;> subst h <;> exact ⟨rfl, rfl⟩

@[simp] theorem decode_encode (i : Instr) : decode (encode i) = .ok i := by
  simp [decode, encode]

/-- An encoded command is a well-formed pair. -/
theorem encode_wf (i : Instr) : (encode i).wf = true := by
  cases i <;> simp [encode, Command.wf, operandsOf, Operand.type, opcodeOf] <;> rfl

/-- The three things decoding can answer. -/
theorem decode_cases (c : Command) :
    (∃ i, decode c = .ok i ∧ c = encode i) ∨
    (decode c = .error .illegalOp ∧ lookupOpcode c.op = none) ∨
    (decode c = .error .wrongOperands ∧ ∃ m, lookupOpcode c.op = some m ∧ bindOperands m c.operands = none) := by
  unfold decode
  cases hl : lookupOpcode c.op with
  | none => simp
  | some m =>
    cases hb : bindOperands m c.operands with
    | none => simp [hb]
    | some i =>
      obtain ⟨h1, h2⟩ := bindOperands_eq_some hb
      have hop := lookupOpcode_eq_some.mp hl
      refine .inl ⟨i, by simp [hb], ?_⟩
      cases c with
      | mk op operands => simp_all [encode]

/-- An operand of each type is that type's constructor. -/
theorem Operand.type_eq {o : Operand} {t : OperandType} (h : o.type = t) :
    match t with
    | .bytes => ∃ data, o = .bytes data
    | .nat => ∃ n, o = .nat n
    | .uint8 => ∃ b, o = .uint8 b
    | .bool => ∃ p, o = .bool p := by
  subst h
  cases o <;> exact ⟨_, rfl⟩

/-- A list of well-typed operand values binds. -/
theorem bindOperands_isSome {m : Opcode} {ops : List Operand} (h : ops.map Operand.type = m.signature) :
    (bindOperands m ops).isSome = true := by
  cases m <;> simp only [Opcode.signature, List.map_eq_cons_iff, List.map_eq_nil_iff] at h
  case crc8 | crc16 =>
    obtain ⟨a, _, rfl, ha, b, _, rfl, hb, rfl⟩ := h
    obtain ⟨_, rfl⟩ := Operand.type_eq ha
    obtain ⟨_, rfl⟩ := Operand.type_eq hb
    rfl
  case crc8Byte | crc16Byte | feed | rxAppend | decodeCoords | decodeVuln =>
    obtain ⟨a, _, rfl, ha, rfl⟩ := h
    obtain ⟨_, rfl⟩ := Operand.type_eq ha
    rfl
  case build =>
    obtain ⟨a, _, rfl, ha, b, _, rfl, hb, d, _, rfl, hd, e, _, rfl, he, rfl⟩ := h
    obtain ⟨_, rfl⟩ := Operand.type_eq ha
    obtain ⟨_, rfl⟩ := Operand.type_eq hb
    obtain ⟨_, rfl⟩ := Operand.type_eq hd
    obtain ⟨_, rfl⟩ := Operand.type_eq he
    rfl
  case encodeVuln =>
    obtain ⟨a, _, rfl, ha, b, _, rfl, hb, d, _, rfl, hd, e, _, rfl, he, f, _, rfl, hf, rfl⟩ := h
    obtain ⟨_, rfl⟩ := Operand.type_eq ha
    obtain ⟨_, rfl⟩ := Operand.type_eq hb
    obtain ⟨_, rfl⟩ := Operand.type_eq hd
    obtain ⟨_, rfl⟩ := Operand.type_eq he
    obtain ⟨_, rfl⟩ := Operand.type_eq hf
    rfl
  all_goals (subst h; rfl)

/-- A well-formed pair decodes, or its code is illegal: it is never rejected for its operands (R73). -/
theorem decode_of_wf {c : Command} (h : c.wf = true) :
    (∃ i, decode c = .ok i ∧ c = encode i) ∨ decode c = .error .illegalOp := by
  rcases decode_cases c with h1 | ⟨h2, -⟩ | ⟨-, m, hm, hb⟩
  · exact .inl h1
  · exact .inr h2
  · have : (bindOperands m c.operands).isSome = true := by
      apply bindOperands_isSome
      simpa [Command.wf, hm] using h
    simp [hb] at this

end Sys2Proof
end

