-- ==== Sys2Proof/Laws/Parser.lean ====
section
/-! SUPPORT. What parsing, consuming and building can answer (42_frame_builder.md R130, 43_frame_parser.md R150, R161): an inversion
lemma for `parse`, its value on each shape of buffer, and the frame a build answers. -/

namespace Sys2Proof.Machine

/-- A result whose candidate lies `n` bytes further on. -/
def ParseResult.shift (n : Nat) (r : ParseResult) : ParseResult := { r with start := r.start.map (n + ·) }

@[simp] theorem shift_code (n : Nat) (r : ParseResult) : (r.shift n).code = r.code := rfl

/-! ## Step 1: the scan -/

theorem findStart_none {buf : List Byte} (h : ∀ b ∈ buf, b ≠ Config.startByte) : findStart buf = none := by
  simpa [findStart] using h

@[simp] theorem findStart_start (rest : List Byte) : findStart (Config.startByte :: rest) = some 0 := by
  simp [findStart, List.findIdx?_cons]

/-- Bytes before the first start byte move the found offset, nothing else. -/
theorem findStart_append {g : List Byte} (hg : ∀ b ∈ g, b ≠ Config.startByte) (f : List Byte) :
    findStart (g ++ f) = (findStart f).map (g.length + ·) := by
  have := findStart_none hg
  simp only [findStart] at this ⊢
  rw [List.findIdx?_append, this]
  simp [Nat.add_comm]

/-- A buffer without a start byte, or the bytes before the first one and those after it. -/
theorem first_start (buf : List Byte) :
    (∀ b ∈ buf, b ≠ Config.startByte) ∨
    ∃ g rest, buf = g ++ Config.startByte :: rest ∧ ∀ b ∈ g, b ≠ Config.startByte := by
  induction buf with
  | nil => simp
  | cons a buf ih =>
    by_cases ha : a = Config.startByte
    · exact .inr ⟨[], buf, by simp [ha], by simp⟩
    · rcases ih with h | ⟨g, rest, rfl, hg⟩
      · exact .inl (by simpa [ha] using h)
      · exact .inr ⟨a :: g, rest, by simp, by simpa [ha] using hg⟩

/-! ## A prefix moves a candidate and changes nothing else -/

theorem parseBody_append (c : Cfg) (g f : List Byte) (s L : Nat) :
    parseBody c (g ++ f) (g.length + s) L = (parseBody c f s L).map (ParseResult.shift g.length) := by
  simp only [parseBody, Nat.add_assoc, readLe16_append, readByte_append, slice_append]
  cases readLe16 f (s + 5) with
  | error e => rfl
  | ok cmd =>
  cases readByte f (s + 3) with
  | error e => rfl
  | ok seq =>
  cases slice f (s + 7) (s + (7 + L)) with
  | error e => rfl
  | ok p =>
  simp only [except_ok_bind]
  split
  · cases readLe16 f (s + (7 + L)) with
    | error e => rfl
    | ok rcrc =>
    cases slice f s (s + (7 + L)) with
    | error e => rfl
    | ok body =>
    cases h : crc16 c body (7 + L) with
    | error e => simp [h, Except.map]
    | ok k =>
      simp only [except_ok_bind, h]
      split <;> simp [Except.map, ParseResult.shift]
  · simp [Except.map, ParseResult.shift]

theorem parseCandidate_append (c : Cfg) (g f : List Byte) (s : Nat) :
    parseCandidate c (g ++ f) (g.length + s) = (parseCandidate c f s).map (ParseResult.shift g.length) := by
  have hlen : (g ++ f).length - (g.length + s) = f.length - s := by simp; omega
  simp only [parseCandidate, parseHeader, parsePresent, parseBody_append, hlen, Nat.add_assoc, readLe16_append, readByte_append,
    slice_append]
  split
  · simp [Except.map, ParseResult.shift]
  · cases readLe16 f (s + 1) with
    | error e => rfl
    | ok L =>
    cases slice f s (s + 4) with
    | error e => rfl
    | ok header =>
    cases h : crc8 c header 4 with
    | error e => simp [h, Except.map]
    | ok k =>
    cases readByte f (s + 4) with
    | error e => simp [h, Except.map]
    | ok hcrc =>
      simp only [except_ok_bind, h]
      split
      · simp [Except.map, ParseResult.shift]
      · split <;> simp [Except.map, ParseResult.shift]

/-- Garbage without a start byte moves `start` and changes nothing else (R178). -/
theorem parse_append (c : Cfg) {g : List Byte} (hg : ∀ b ∈ g, b ≠ Config.startByte) (f : List Byte) :
    parse c (g ++ f) = (parse c f).map (ParseResult.shift g.length) := by
  rw [parse, parse, findStart_append hg]
  cases findStart f with
  | none => simp [Except.map, ParseResult.shift]
  | some s => simp [parseCandidate_append]

/-! ## The value of parse on each shape of buffer that begins with a start byte -/

theorem parse_start (c : Cfg) (rest : List Byte) :
    parse c (Config.startByte :: rest) = parseCandidate c (Config.startByte :: rest) 0 := by
  simp [parse]

theorem parse_short (c : Cfg) {rest : List Byte} (h : rest.length < 6) :
    parse c (Config.startByte :: rest) = .ok { code := .incomplete, start := some 0 } := by
  simp [parse_start, parseCandidate, Config.headerLen]
  omega

/-- The header check with its 7 bytes in view. -/
theorem parse_header (c : Cfg) (l0 l1 sq hc i0 i1 : Byte) (tail : List Byte) :
    parse c (Config.startByte :: l0 :: l1 :: sq :: hc :: i0 :: i1 :: tail) =
      if crc8Of c [Config.startByte, l0, l1, sq] ≠ hc then .ok { code := .headerCrcMismatch, start := some 0 }
      else parsePresent c (Config.startByte :: l0 :: l1 :: sq :: hc :: i0 :: i1 :: tail) 0 (le16 l0 l1).toNat := by
  have hs : slice (Config.startByte :: l0 :: l1 :: sq :: hc :: i0 :: i1 :: tail) 0 4 = .ok [Config.startByte, l0, l1, sq] :=
    slice_front (p := [Config.startByte, l0, l1, sq]) (f := hc :: i0 :: i1 :: tail) rfl
  rw [parse_start, parseCandidate, if_neg (by simp [Config.headerLen])]
  simp only [parseHeader, Nat.zero_add, hs, except_ok_bind, crc8_length c (data := [Config.startByte, l0, l1, sq]) (n := 4) rfl]
  rw [show readLe16 (Config.startByte :: l0 :: l1 :: sq :: hc :: i0 :: i1 :: tail) 1 = .ok (le16 l0 l1) from rfl,
    show readByte (Config.startByte :: l0 :: l1 :: sq :: hc :: i0 :: i1 :: tail) 4 = .ok hc from rfl]
  simp

/-- The whole-frame check with the header in view. -/
theorem parsePresent_short (c : Cfg) {buf : List Byte} {L : Nat} (h : buf.length < 9 + L) :
    parsePresent c buf 0 L = .ok { code := .incomplete, start := some 0, len := some L } := by
  simp [parsePresent, Config.headerLen, Config.trailerLen]
  omega

/-- The lookup and the body check with the whole frame in view. -/
theorem parsePresent_whole (c : Cfg) (a l0 l1 sq hc i0 i1 k0 k1 : Byte) (p more : List Byte) {L : Nat} (hL : p.length = L) :
    parsePresent c (a :: l0 :: l1 :: sq :: hc :: i0 :: i1 :: (p ++ k0 :: k1 :: more)) 0 L =
      if le16 i0 i1 ∈ c.knownCmds then
        if crc16Of c (a :: l0 :: l1 :: sq :: hc :: i0 :: i1 :: p) ≠ le16 k0 k1 then
          .ok { code := .bodyCrcMismatch, start := some 0, len := some L }
        else .ok { code := .frame, start := some 0, len := some L, cmd := some (le16 i0 i1), seq := some sq, payload := some p }
      else .ok { code := .unknownCommand, start := some 0, len := some L, cmd := some (le16 i0 i1), seq := some sq,
                 payload := some p } := by
  subst hL
  have head : a :: l0 :: l1 :: sq :: hc :: i0 :: i1 :: (p ++ k0 :: k1 :: more) = [a, l0, l1, sq, hc, i0, i1] ++ (p ++ k0 :: k1 :: more) := rfl
  have whole : a :: l0 :: l1 :: sq :: hc :: i0 :: i1 :: (p ++ k0 :: k1 :: more) = (a :: l0 :: l1 :: sq :: hc :: i0 :: i1 :: p) ++ (k0 :: k1 :: more) := rfl
  have hcmd : readLe16 (a :: l0 :: l1 :: sq :: hc :: i0 :: i1 :: (p ++ k0 :: k1 :: more)) 5 = .ok (le16 i0 i1) := rfl
  have hseq : readByte (a :: l0 :: l1 :: sq :: hc :: i0 :: i1 :: (p ++ k0 :: k1 :: more)) 3 = .ok sq := rfl
  have hp : slice (a :: l0 :: l1 :: sq :: hc :: i0 :: i1 :: (p ++ k0 :: k1 :: more)) 7 (7 + p.length) = .ok p := by
    rw [head]; exact slice_middle [a, l0, l1, sq, hc, i0, i1] p (k0 :: k1 :: more)
  have hbody : slice (a :: l0 :: l1 :: sq :: hc :: i0 :: i1 :: (p ++ k0 :: k1 :: more)) 0 (7 + p.length)
      = .ok (a :: l0 :: l1 :: sq :: hc :: i0 :: i1 :: p) := by
    rw [whole]; exact slice_front (by simp; omega)
  have hrcrc : readLe16 (a :: l0 :: l1 :: sq :: hc :: i0 :: i1 :: (p ++ k0 :: k1 :: more)) (7 + p.length) = .ok (le16 k0 k1) := by
    rw [whole, show 7 + p.length = (a :: l0 :: l1 :: sq :: hc :: i0 :: i1 :: p).length + 0 by simp; omega, readLe16_append]
    rfl
  have hk : crc16 c (a :: l0 :: l1 :: sq :: hc :: i0 :: i1 :: p) (7 + p.length) = .ok (crc16Of c (a :: l0 :: l1 :: sq :: hc :: i0 :: i1 :: p)) :=
    crc16_length c (by simp; omega)
  rw [parsePresent, if_neg (by simp [Config.headerLen, Config.trailerLen]; omega)]
  simp only [parseBody, Nat.zero_add, hcmd, hseq, hp, hbody, hrcrc, hk, except_ok_bind, except_pure]

/-! ## Inversion -/

/-- Everything `parse` can answer, with the shape of the buffer it answers it for (R150): steps 1 and 2, then 3 and 4, then 5 to 7. -/
theorem parse_cases (c : Cfg) (buf : List Byte) :
    ((∀ b ∈ buf, b ≠ Config.startByte) ∧ parse c buf = .ok { code := .noStartByte }) ∨
    ∃ g rest, buf = g ++ Config.startByte :: rest ∧ (∀ b ∈ g, b ≠ Config.startByte) ∧
      ((rest.length < 6 ∧ parse c buf = .ok { code := .incomplete, start := some g.length }) ∨
       ∃ l0 l1 sq hc i0 i1 tail, rest = l0 :: l1 :: sq :: hc :: i0 :: i1 :: tail ∧
        ((crc8Of c [Config.startByte, l0, l1, sq] ≠ hc ∧
          parse c buf = .ok { code := .headerCrcMismatch, start := some g.length }) ∨
         (crc8Of c [Config.startByte, l0, l1, sq] = hc ∧ tail.length < (le16 l0 l1).toNat + 2 ∧
          parse c buf = .ok { code := .incomplete, start := some g.length, len := some (le16 l0 l1).toNat }) ∨
         (crc8Of c [Config.startByte, l0, l1, sq] = hc ∧
          ∃ p k0 k1 more, tail = p ++ k0 :: k1 :: more ∧ p.length = (le16 l0 l1).toNat ∧
          ((le16 i0 i1 ∉ c.knownCmds ∧
            parse c buf = .ok { code := .unknownCommand, start := some g.length, len := some (le16 l0 l1).toNat,
                                cmd := some (le16 i0 i1), seq := some sq, payload := some p }) ∨
           (le16 i0 i1 ∈ c.knownCmds ∧ crc16Of c (Config.startByte :: l0 :: l1 :: sq :: hc :: i0 :: i1 :: p) ≠ le16 k0 k1 ∧
            parse c buf = .ok { code := .bodyCrcMismatch, start := some g.length, len := some (le16 l0 l1).toNat }) ∨
           (le16 i0 i1 ∈ c.knownCmds ∧ crc16Of c (Config.startByte :: l0 :: l1 :: sq :: hc :: i0 :: i1 :: p) = le16 k0 k1 ∧
            parse c buf = .ok { code := .frame, start := some g.length, len := some (le16 l0 l1).toNat,
                                cmd := some (le16 i0 i1), seq := some sq, payload := some p }))))) := by
  rcases first_start buf with h | ⟨g, rest, rfl, hg⟩
  · exact .inl ⟨h, by simp [parse, findStart_none h]⟩
  refine .inr ⟨g, rest, rfl, hg, ?_⟩
  rw [parse_append c hg]
  by_cases hshort : rest.length < 6
  · exact .inl ⟨hshort, by simp [parse_short c hshort, Except.map, ParseResult.shift]⟩
  right
  obtain ⟨l0, l1, sq, hc, i0, i1, tail, rfl⟩ : ∃ l0 l1 sq hc i0 i1 tail, rest = l0 :: l1 :: sq :: hc :: i0 :: i1 :: tail := by
    match rest, hshort with
    | l0 :: l1 :: sq :: hc :: i0 :: i1 :: tail, _ => exact ⟨l0, l1, sq, hc, i0, i1, tail, rfl⟩
    | [], h | [_], h | [_, _], h | [_, _, _], h | [_, _, _, _], h | [_, _, _, _, _], h => simp at h
  refine ⟨l0, l1, sq, hc, i0, i1, tail, rfl, ?_⟩
  rw [parse_header]
  by_cases hcrc : crc8Of c [Config.startByte, l0, l1, sq] = hc
  · right
    rw [if_neg (by simpa using hcrc)]
    by_cases hpresent : tail.length < (le16 l0 l1).toNat + 2
    · refine .inl ⟨hcrc, hpresent, ?_⟩
      rw [parsePresent_short c (by simp; omega)]
      simp [Except.map, ParseResult.shift]
    · refine .inr ⟨hcrc, ?_⟩
      obtain ⟨p, k0, k1, more, rfl, hp⟩ : ∃ p k0 k1 more, tail = p ++ k0 :: k1 :: more ∧ p.length = (le16 l0 l1).toNat := by
        have hlen : ((tail.drop (le16 l0 l1).toNat)).length = tail.length - (le16 l0 l1).toNat := List.length_drop
        match hd : tail.drop (le16 l0 l1).toNat with
        | k0 :: k1 :: more =>
          exact ⟨tail.take (le16 l0 l1).toNat, k0, k1, more, by rw [← hd, List.take_append_drop], by simp; omega⟩
        | [] | [_] => rw [hd] at hlen; simp at hlen; omega
      refine ⟨p, k0, k1, more, rfl, hp, ?_⟩
      rw [parsePresent_whole c _ _ _ _ _ _ _ _ _ _ _ hp]
      by_cases hknown : le16 i0 i1 ∈ c.knownCmds
      · rw [if_pos hknown]
        by_cases hbody : crc16Of c (Config.startByte :: l0 :: l1 :: sq :: hc :: i0 :: i1 :: p) = le16 k0 k1
        · exact .inr (.inr ⟨hknown, hbody, by simp [hbody, Except.map, ParseResult.shift]⟩)
        · exact .inr (.inl ⟨hknown, hbody, by simp [hbody, Except.map, ParseResult.shift]⟩)
      · exact .inl ⟨hknown, by simp [hknown, Except.map, ParseResult.shift]⟩
  · exact .inl ⟨hcrc, by simp [hcrc, Except.map, ParseResult.shift]⟩

/-- What `consume` answers after each outcome of `parse`, within the buffer (R161). -/
theorem consume_cases (c : Cfg) (buf : List Byte) :
    ∃ r k, parse c buf = .ok r ∧ consume c r buf.length = .ok k ∧ k ≤ buf.length ∧
      ((r.code = .noStartByte ∧ k = buf.length) ∨
       (r.code = .incomplete ∧ c.incompletePolicy = .retain ∧ r.start = some k) ∨
       (r.code = .incomplete ∧ c.incompletePolicy = .drop ∧ k = buf.length) ∨
       ((r.code = .headerCrcMismatch ∨ r.code = .bodyCrcMismatch) ∧ ∃ s, r.start = some s ∧ k = s + 1) ∨
       ((r.code = .unknownCommand ∨ r.code = .frame) ∧ ∃ s L, r.start = some s ∧ r.len = some L ∧ k = s + 9 + L)) := by
  rcases parse_cases c buf with ⟨-, h⟩ | ⟨g, rest, rfl, -, h⟩
  · exact ⟨_, _, h, rfl, le_rfl, by simp⟩
  · rcases h with ⟨-, h⟩ | ⟨l0, l1, sq, hc, i0, i1, tail, rfl, h⟩
    · cases hp : c.incompletePolicy <;> refine ⟨_, _, h, by simp [consume, hp, readField]; rfl, by simp, by simp⟩
    · rcases h with ⟨-, h⟩ | ⟨-, -, h⟩ | ⟨-, p, k0, k1, more, rfl, hp, h⟩
      · exact ⟨_, g.length + 1, h, by simp [consume, readField], by simp, by simp⟩
      · cases hp : c.incompletePolicy <;> refine ⟨_, _, h, by simp [consume, hp, readField]; rfl, by simp, by simp⟩
      · rcases h with ⟨-, h⟩ | ⟨-, -, h⟩ | ⟨-, -, h⟩
        · exact ⟨_, g.length + 9 + (le16 l0 l1).toNat, h, by simp [consume, readField], by simp; omega, by simp⟩
        · exact ⟨_, g.length + 1, h, by simp [consume, readField], by simp, by simp⟩
        · exact ⟨_, g.length + 9 + (le16 l0 l1).toNat, h, by simp [consume, readField], by simp; omega, by simp⟩

/-- `parse` is defined for every buffer (R150). -/
theorem parse_isOk (c : Cfg) (buf : List Byte) : ∃ r, parse c buf = .ok r := by
  obtain ⟨r, k, h, -⟩ := consume_cases c buf
  exact ⟨r, h⟩

/-! ## Building -/

/-- The frame a build answers, laid out (R75, R130). -/
def frameOf (c : Cfg) (payload : List Byte) (seq c0 c1 : Byte) : List Byte :=
  let L : Half := BitVec.ofNat 16 payload.length
  let header := [Config.startByte, lo L, hi L, seq, crc8Of c [Config.startByte, lo L, hi L, seq], c1, c0]
  header ++ payload ++ [lo (crc16Of c (header ++ payload)), hi (crc16Of c (header ++ payload))]

/-- A build reads nothing out of range and answers that frame. -/
theorem buildFrame_eq (c : Cfg) (payload : List Byte) (seq c0 c1 : Byte) :
    buildFrame c payload seq c0 c1 = .ok (frameOf c payload seq c0 c1) := by
  simp only [buildFrame, crc8_length c (data := [Config.startByte, lo (BitVec.ofNat 16 payload.length),
    hi (BitVec.ofNat 16 payload.length), seq]) (n := 4) rfl, except_ok_bind]
  rw [crc16_length c (by simp [Config.headerLen]; omega)]
  simp [frameOf]

theorem frameOf_length (c : Cfg) (payload : List Byte) (seq c0 c1 : Byte) :
    (frameOf c payload seq c0 c1).length = 9 + payload.length := by
  simp [frameOf]; omega

/-- The result of parsing a built frame: a FRAME for a known command, else UNKNOWN_COMMAND (R175). -/
def frameResult (c : Cfg) (payload : List Byte) (seq c0 c1 : Byte) : ParseResult :=
  { code := if le16 c1 c0 ∈ c.knownCmds then .frame else .unknownCommand, start := some 0, len := some payload.length,
    cmd := some (le16 c1 c0), seq := some seq, payload := some payload }

/-- A built frame parses to its own fields, whatever follows it (R154, R175). -/
theorem parse_frameOf (c : Cfg) {payload : List Byte} (h : payload.length ≤ Config.maxPayload) (seq c0 c1 : Byte) (more : List Byte) :
    parse c (frameOf c payload seq c0 c1 ++ more) = .ok (frameResult c payload seq c0 c1) := by
  have hL : (le16 (lo (BitVec.ofNat 16 payload.length)) (hi (BitVec.ofNat 16 payload.length))).toNat = payload.length := by
    rw [le16_lo_hi, BitVec.toNat_ofNat]
    exact Nat.mod_eq_of_lt (by simp only [Config.maxPayload] at h; omega)
  simp only [frameOf, List.cons_append, List.nil_append, List.append_assoc]
  rw [parse_header, if_neg (by simp), hL, parsePresent_whole c _ _ _ _ _ _ _ _ _ _ _ rfl]
  by_cases hk : le16 c1 c0 ∈ c.knownCmds <;> simp [frameResult, hk]

end Sys2Proof.Machine
end

