-- ==== Sys2Proof/Laws/Exec.lean ====
section
/-! SUPPORT. What a command and a step can do, said once (60_exceptions.md R211, R212; 10_state.md R23, R24, R28, R30): later proofs
cite these and unfold no meaning. -/

namespace Sys2Proof.Machine

/-- The fault a command meets, if any (the table of R211). -/
def faultOf (i : Instr) (s : State) : Option FaultCode :=
  match i with
  | .crc8 data n | .crc16 data n => if n > data.length then some .crcLength else none
  | .crc8Byte _ | .crc8Read => if s.acc8.isSome then none else some .accUninit
  | .crc16Byte _ | .crc16Read => if s.acc16.isSome then none else some .accUninit
  | .build payload _ _ _ => if payload.length > Config.maxPayload then some .buildLength else none
  | .rxAppend chunk => if withinCapacity s.cfg.rxbufCap (s.rxbuf.length + chunk.length) then none else some .rxOverflow
  | .decodeCoords _ | .encodeVuln _ _ _ _ _ | .decodeVuln _ => if s.cfg.hasPayloadDecoder then none else some .illegalOp
  | .crc8Init | .crc16Init | .feed _ | .rxParse | .rxClear | .status => none

/-- Which fields a command that meets no fault may write, and how (R23, R24, R30, R31). -/
structure Writes (i : Instr) (s t : State) : Prop where
  cfg : t.cfg = s.cfg
  fault : t.fault = s.fault
  inbox : t.inbox = s.inbox
  acc8 : t.acc8 = s.acc8 ∨ i = .crc8Init ∨ ∃ b, i = .crc8Byte b
  acc16 : t.acc16 = s.acc16 ∨ i = .crc16Init ∨ ∃ b, i = .crc16Byte b
  rxbuf : t.rxbuf = s.rxbuf ∨
    (∃ chunk, i = .rxAppend chunk ∧ t.rxbuf = s.rxbuf ++ chunk ∧ withinCapacity s.cfg.rxbufCap t.rxbuf.length = true) ∨
    (i = .rxParse ∧ ∃ k ≤ s.rxbuf.length, t.rxbuf = s.rxbuf.drop k) ∨
    (i = .rxClear ∧ t.rxbuf = [])

/-- A command that answers a value and writes nothing. -/
theorem writes_nothing (i : Instr) (s : State) (v : Value) : Writes i s (respond v s) :=
  ⟨rfl, rfl, rfl, .inl rfl, .inl rfl, .inl rfl⟩

/-- The six entries of a long enough payload are read inside it (R59, R191). -/
theorem readEntry_of_le {payload : List Byte} {k : Nat} (h : 4 * k + 4 ≤ payload.length) :
    readEntry payload k = .ok (coordEntry (le16 payload[4 * k] payload[4 * k + 1]) (le16 payload[4 * k + 2] payload[4 * k + 3])) := by
  simp only [readEntry, readLe16_of_lt (show 4 * k + 1 < payload.length by omega),
    readLe16_of_lt (show 4 * k + 2 + 1 < payload.length by omega), except_ok_bind, except_pure]

/-- Decoding coordinates is defined for every payload (R191). -/
theorem decodeCoordinates_isOk (payload : List Byte) : ∃ v, decodeCoordinates payload = .ok v := by
  unfold decodeCoordinates
  split
  · exact ⟨_, rfl⟩
  · rw [readEntry_of_le (k := 0) (by omega), readEntry_of_le (k := 1) (by omega), readEntry_of_le (k := 2) (by omega),
      readEntry_of_le (k := 3) (by omega), readEntry_of_le (k := 4) (by omega), readEntry_of_le (k := 5) (by omega)]
    exact ⟨_, rfl⟩

/-! ## The writing commands, each on its own path -/

theorem exec_crc8Byte {s : State} {acc : Byte} (h : s.acc8 = some acc) (b : Byte) :
    exec (.crc8Byte b) s =
      .next (respond (.uint8 (step8 s.cfg acc b ^^^ s.cfg.crc8Xorout)) { s with acc8 := some (step8 s.cfg acc b) }) := by
  simp [exec, execCrc8Byte, h]

theorem exec_crc16Byte {s : State} {acc : Half} (h : s.acc16 = some acc) (b : Byte) :
    exec (.crc16Byte b) s =
      .next (respond (.uint16 (step16 s.cfg acc b ^^^ s.cfg.crc16Xorout)) { s with acc16 := some (step16 s.cfg acc b) }) := by
  simp [exec, execCrc16Byte, h]

theorem exec_rxAppend {s : State} {chunk : List Byte} (h : withinCapacity s.cfg.rxbufCap (s.rxbuf.length + chunk.length) = true) :
    exec (.rxAppend chunk) s = .next (respond (.nat (s.rxbuf ++ chunk).length) { s with rxbuf := s.rxbuf ++ chunk }) := by
  simp [exec, execRxAppend, h]

/-- RX_PARSE answers the parse of RXBUF and removes the consumed front (R171, R172). -/
theorem exec_rxParse {s : State} {r : ParseResult} {k : Nat} (hr : parse s.cfg s.rxbuf = .ok r)
    (hk : consume s.cfg r s.rxbuf.length = .ok k) (hle : k ≤ s.rxbuf.length) :
    exec .rxParse s = .next (respond (.parse r) { s with rxbuf := s.rxbuf.drop k }) := by
  simp [exec, execRxParse, takeFrame, hr, hk, slice_rest hle]

/-- Everything a command can do: raise its one fault and nothing else (R212, R213), or answer a value and write what it may. -/
theorem exec_cases (i : Instr) (s : State) :
    (∃ k, faultOf i s = some k ∧ exec i s = .next (raise k s)) ∨
    (faultOf i s = none ∧ ∃ v t, exec i s = .next t ∧ t.response = some (.ok v) ∧ Writes i s t) := by
  cases i with
  | crc8 data n =>
    by_cases h : n > data.length
    · exact .inl ⟨.crcLength, by simp [faultOf, h], by simp [exec, execCrc8, h]⟩
    · exact .inr ⟨by simp [faultOf, h], _, _, by simp only [exec, execCrc8, if_neg h, crc8_of_le s.cfg (Nat.le_of_not_lt h)]; rfl,
        rfl, writes_nothing _ s _⟩
  | crc16 data n =>
    by_cases h : n > data.length
    · exact .inl ⟨.crcLength, by simp [faultOf, h], by simp [exec, execCrc16, h]⟩
    · exact .inr ⟨by simp [faultOf, h], _, _, by simp only [exec, execCrc16, if_neg h, crc16_of_le s.cfg (Nat.le_of_not_lt h)]; rfl,
        rfl, writes_nothing _ s _⟩
  | crc8Init => exact .inr ⟨rfl, _, _, rfl, rfl, ⟨rfl, rfl, rfl, .inr (.inl rfl), .inl rfl, .inl rfl⟩⟩
  | crc16Init => exact .inr ⟨rfl, _, _, rfl, rfl, ⟨rfl, rfl, rfl, .inl rfl, .inr (.inl rfl), .inl rfl⟩⟩
  | crc8Byte b =>
    cases h : s.acc8 with
    | none => exact .inl ⟨.accUninit, by simp [faultOf, h], by simp [exec, execCrc8Byte, h]⟩
    | some acc =>
      exact .inr ⟨by simp [faultOf, h], _, _, exec_crc8Byte h b, rfl,
        ⟨rfl, rfl, rfl, .inr (.inr ⟨b, rfl⟩), .inl rfl, .inl rfl⟩⟩
  | crc16Byte b =>
    cases h : s.acc16 with
    | none => exact .inl ⟨.accUninit, by simp [faultOf, h], by simp [exec, execCrc16Byte, h]⟩
    | some acc =>
      exact .inr ⟨by simp [faultOf, h], _, _, exec_crc16Byte h b, rfl,
        ⟨rfl, rfl, rfl, .inl rfl, .inr (.inr ⟨b, rfl⟩), .inl rfl⟩⟩
  | crc8Read =>
    cases h : s.acc8 with
    | none => exact .inl ⟨.accUninit, by simp [faultOf, h], by simp [exec, execCrc8Read, h]⟩
    | some acc => exact .inr ⟨by simp [faultOf, h], _, _, by simp only [exec, execCrc8Read, h]; rfl, rfl, writes_nothing _ s _⟩
  | crc16Read =>
    cases h : s.acc16 with
    | none => exact .inl ⟨.accUninit, by simp [faultOf, h], by simp [exec, execCrc16Read, h]⟩
    | some acc => exact .inr ⟨by simp [faultOf, h], _, _, by simp only [exec, execCrc16Read, h]; rfl, rfl, writes_nothing _ s _⟩
  | build payload seq c0 c1 =>
    by_cases h : payload.length > Config.maxPayload
    · exact .inl ⟨.buildLength, by simp [faultOf, h], by simp [exec, execBuild, h]⟩
    · exact .inr ⟨by simp [faultOf, h], _, _, by simp only [exec, execBuild, if_neg h, buildFrame_eq]; rfl, rfl, writes_nothing _ s _⟩
  | feed buf =>
    obtain ⟨r, h⟩ := parse_isOk s.cfg buf
    exact .inr ⟨rfl, _, _, by simp only [exec, execFeed, h]; rfl, rfl, writes_nothing _ s _⟩
  | rxAppend chunk =>
    by_cases h : withinCapacity s.cfg.rxbufCap (s.rxbuf.length + chunk.length) = true
    · refine .inr ⟨by simp [faultOf, h], _, _, exec_rxAppend h, rfl,
        ⟨rfl, rfl, rfl, .inl rfl, .inl rfl, .inr (.inl ⟨chunk, rfl, rfl, ?_⟩)⟩⟩
      simpa [respond] using h
    · exact .inl ⟨.rxOverflow, by simp [faultOf, h], by simp [exec, execRxAppend, h]⟩
  | rxParse =>
    obtain ⟨r, k, hr, hk, hle, -⟩ := consume_cases s.cfg s.rxbuf
    exact .inr ⟨rfl, _, _, exec_rxParse hr hk hle, rfl,
      ⟨rfl, rfl, rfl, .inl rfl, .inl rfl, .inr (.inr (.inl ⟨rfl, k, hle, rfl⟩))⟩⟩
  | rxClear => exact .inr ⟨rfl, _, _, rfl, rfl, ⟨rfl, rfl, rfl, .inl rfl, .inl rfl, .inr (.inr (.inr ⟨rfl, rfl⟩))⟩⟩
  | decodeCoords payload =>
    obtain ⟨v, hv⟩ := decodeCoordinates_isOk payload
    rcases respondFromDecoder_cases v s with ⟨h, he⟩ | ⟨h, he⟩
    · exact .inr ⟨by simp [faultOf, h], v, _, by simp only [exec, execDecodeCoords, hv, complete_ok, he], rfl, writes_nothing _ s _⟩
    · exact .inl ⟨.illegalOp, by simp [faultOf, h], by simp only [exec, execDecodeCoords, hv, complete_ok, he]⟩
  | encodeVuln r1 r2 r3 r4 r7 =>
    rcases respondFromDecoder_cases (.uint8 (vulnMask r1 r2 r3 r4 r7)) s with ⟨h, he⟩ | ⟨h, he⟩
    · exact .inr ⟨by simp [faultOf, h], _, _, by simp only [exec, execEncodeVuln, he]; rfl, rfl, writes_nothing _ s _⟩
    · exact .inl ⟨.illegalOp, by simp [faultOf, h], by simp only [exec, execEncodeVuln, he]⟩
  | decodeVuln v =>
    rcases respondFromDecoder_cases (.flags (vulnFlags v)) s with ⟨h, he⟩ | ⟨h, he⟩
    · exact .inr ⟨by simp [faultOf, h], _, _, by simp only [exec, execDecodeVuln, he]; rfl, rfl, writes_nothing _ s _⟩
    · exact .inl ⟨.illegalOp, by simp [faultOf, h], by simp only [exec, execDecodeVuln, he]⟩
  | status => exact .inr ⟨rfl, _, _, rfl, rfl, writes_nothing _ s _⟩

/-- Every command answers a next state, and leaves the configuration and the waiting events alone. -/
theorem exec_total (i : Instr) (s : State) : ∃ t, exec i s = .next t ∧ t.cfg = s.cfg ∧ t.inbox = s.inbox := by
  rcases exec_cases i s with ⟨k, -, he⟩ | ⟨-, v, t, he, -, w⟩
  · exact ⟨_, he, rfl, rfl⟩
  · exact ⟨t, he, w.cfg, w.inbox⟩

/-- A command that meets a fault raises it (R212). -/
theorem exec_of_fault {i : Instr} {s : State} {k : FaultCode} (h : faultOf i s = some k) : exec i s = .next (raise k s) := by
  rcases exec_cases i s with ⟨k', hk, he⟩ | ⟨hk, -⟩
  · rw [h] at hk; injection hk with hk; rw [he, hk]
  · rw [h] at hk; cases hk

/-- What the next state of a command holds: the fault it met, or a value and what it may write. -/
theorem exec_next {i : Instr} {s t : State} (h : exec i s = .next t) :
    (∃ k, faultOf i s = some k ∧ t = raise k s) ∨ (faultOf i s = none ∧ (∃ v, t.response = some (.ok v)) ∧ Writes i s t) := by
  rcases exec_cases i s with ⟨k, hk, he⟩ | ⟨hk, v, u, he, hv, w⟩ <;> rw [he] at h <;> injection h with h <;> subst h
  · exact .inl ⟨k, hk, rfl⟩
  · exact .inr ⟨hk, ⟨v, hv⟩, w⟩

/-- Everything one step can do: nothing when nothing is issued, the host's reset, a command, ILLEGAL_OP, or the refusal of a pair
that is no command (R60, R63, R82, R240). -/
theorem step_cases (s : State) :
    (s.inbox = [] ∧ step s = .next s) ∨
    (∃ rest, s.inbox = .reset :: rest ∧ step s = .next (hostReset { s with inbox := rest })) ∨
    (∃ a i rest, s.inbox = .command a (encode i) :: rest ∧ step s = exec i { s with inbox := rest }) ∨
    (∃ a c rest, s.inbox = .command a c :: rest ∧ step s = .next (raise .illegalOp { s with inbox := rest }) ∧
      (lookupOpcode c.op = none ∨ isDecoderCode c.op = true ∧ s.cfg.hasPayloadDecoder = false ∧ c.wf = false)) ∨
    (∃ a c rest, s.inbox = .command a c :: rest ∧ step s = .refused .notACommand ∧ c.wf = false) := by
  cases hin : s.inbox with
  | nil => exact .inl ⟨rfl, by simp [step, performNext, hin]⟩
  | cons e rest =>
    cases e with
    | reset => exact .inr (.inl ⟨rest, rfl, by simp [step, performNext, hin]⟩)
    | command a c =>
      rcases decode_cases c with ⟨i, hd, rfl⟩ | ⟨hd, hl⟩ | ⟨hd, -⟩
      · exact .inr (.inr (.inl ⟨a, i, rest, rfl, by simp [step, performNext, hin, issueCommand, hd]⟩))
      · exact .inr (.inr (.inr (.inl ⟨a, c, rest, rfl, by simp [step, performNext, hin, issueCommand, hd], .inl hl⟩)))
      · have hwf : c.wf = false := by
          by_contra h
          rcases decode_of_wf (c := c) (by simpa using h) with ⟨i, hi, -⟩ | hi <;> simp [hd] at hi
        by_cases habs : (isDecoderCode c.op && !s.cfg.hasPayloadDecoder) = true
        · refine .inr (.inr (.inr (.inl ⟨a, c, rest, rfl, by simp [step, performNext, hin, issueCommand, hd, habs], .inr ?_⟩)))
          simpa [hwf] using habs
        · exact .inr (.inr (.inr (.inr ⟨a, c, rest, rfl, by simp [step, performNext, hin, issueCommand, hd, habs], hwf⟩)))

/-- A step that answers a next state does nothing, resets, or runs a command or ILLEGAL_OP on the state without its head event. -/
theorem step_next {s t : State} (h : step s = .next t) :
    (s.inbox = [] ∧ t = s) ∨
    (∃ rest, s.inbox = .reset :: rest ∧ t = hostReset { s with inbox := rest }) ∨
    (∃ a i rest, s.inbox = .command a (encode i) :: rest ∧ exec i { s with inbox := rest } = .next t) ∨
    (∃ a c rest, s.inbox = .command a c :: rest ∧ t = raise .illegalOp { s with inbox := rest }) := by
  rcases step_cases s with ⟨h1, h2⟩ | ⟨r, h1, h2⟩ | ⟨a, i, r, h1, h2⟩ | ⟨a, c, r, h1, h2, -⟩ | ⟨a, c, r, h1, h2, -⟩ <;> rw [h2] at h
  · injection h with h; exact .inl ⟨h1, h.symm⟩
  · injection h with h; exact .inr (.inl ⟨r, h1, h.symm⟩)
  · exact .inr (.inr (.inl ⟨a, i, r, h1, h⟩))
  · injection h with h; exact .inr (.inr (.inr ⟨a, c, r, h1, h.symm⟩))
  · cases h

end Sys2Proof.Machine
end

