-- ==== Sys2Proof/Laws/Legal.lean ====
section
/-! SUPPORT. A CRC-8 table without repeated entries meets the single-bit requirement of 41_checksum.md R113. -/

namespace Sys2Proof.Machine

/-- One flipped bit is another byte. -/
theorem xor_bit_ne (b : Byte) {j : Nat} (hj : j < 8) : b ^^^ ((1 : Byte) <<< j) ≠ b := by
  intro e
  have zero := congrArg (b ^^^ ·) e
  rw [← BitVec.xor_assoc] at zero
  simp only [BitVec.xor_self, BitVec.zero_xor] at zero
  have nonzero : ∀ j < 8, (1 : Byte) <<< j ≠ 0 := by decide
  exact nonzero j hj zero

/-- With no repeated table entry, one update is injective in the accumulator. -/
theorem step8_injective {c : Cfg} (h : ∀ i j : Byte, tableEntry8 c i = tableEntry8 c j → i = j) {a b x : Byte}
    (e : step8 c a x = step8 c b x) : a = b := by
  have := congrArg (· ^^^ x) (h _ _ e)
  simpa [BitVec.xor_assoc] using this

/-- ... and in the byte. -/
theorem step8_injective_byte {c : Cfg} (h : ∀ i j : Byte, tableEntry8 c i = tableEntry8 c j → i = j) {a x y : Byte}
    (e : step8 c a x = step8 c a y) : x = y :=
  step8_injective h (x := a) (by simpa [step8, BitVec.xor_comm] using e)

/-- A table without repeated entries meets R113: the flipped byte changes the accumulator, and no later byte can undo it. -/
theorem headerSensitive_of_injective {c : Cfg} (h : ∀ i j : Byte, tableEntry8 c i = tableEntry8 c j → i = j) :
    HeaderSensitive c := by
  intro header hlen k hk
  match header, hlen with
  | [b0, b1, b2, b3], _ =>
    rw [crc8_length c (data := flipBit [b0, b1, b2, b3] k) (by simp [flipBit]), crc8_four]
    intro e
    injection e with e
    have e := congrArg (· ^^^ c.crc8Xorout) e
    simp only [crc8Of, BitVec.xor_assoc, BitVec.xor_self, BitVec.xor_zero] at e
    have bit := Nat.mod_lt k (show 0 < 8 by decide)
    have byte : k / 8 = 0 ∨ k / 8 = 1 ∨ k / 8 = 2 ∨ k / 8 = 3 := by omega
    rcases byte with hb | hb | hb | hb <;>
      simp only [flipBit, hb, List.modify_zero_cons, List.modify_succ_cons, List.foldl_cons, List.foldl_nil] at e
    · exact xor_bit_ne _ bit (step8_injective_byte h (step8_injective h (step8_injective h (step8_injective h e))))
    · exact xor_bit_ne _ bit (step8_injective_byte h (step8_injective h (step8_injective h e)))
    · exact xor_bit_ne _ bit (step8_injective_byte h (step8_injective h e))
    · exact xor_bit_ne _ bit (step8_injective_byte h e)

end Sys2Proof.Machine
end

