-- ==== Sys2Proof/Laws/PerInstr.lean ====
section
/-! SUPPORT. Per-instruction statements about commands as data, one lemma per constructor (LAWS.json). -/

namespace Sys2Proof.Laws

namespace Encoding

/-- The encoding of a command is a well-formed pair (30_encoding.md R70, R73), and decoding it gives the command back (R71). -/
def Statement (i : Instr) : Prop := (encode i).wf = true ∧ decode (encode i) = .ok i

theorem crc8 (data : List Byte) (n : Nat) : Statement (.crc8 data n) := ⟨rfl, rfl⟩
theorem crc16 (data : List Byte) (n : Nat) : Statement (.crc16 data n) := ⟨rfl, rfl⟩
theorem crc8Init : Statement .crc8Init := ⟨rfl, rfl⟩
theorem crc8Byte (b : Byte) : Statement (.crc8Byte b) := ⟨rfl, rfl⟩
theorem crc8Read : Statement .crc8Read := ⟨rfl, rfl⟩
theorem crc16Init : Statement .crc16Init := ⟨rfl, rfl⟩
theorem crc16Byte (b : Byte) : Statement (.crc16Byte b) := ⟨rfl, rfl⟩
theorem crc16Read : Statement .crc16Read := ⟨rfl, rfl⟩
theorem build (payload : List Byte) (seq c0 c1 : Byte) : Statement (.build payload seq c0 c1) := ⟨rfl, rfl⟩
theorem feed (buf : List Byte) : Statement (.feed buf) := ⟨rfl, rfl⟩
theorem rxAppend (chunk : List Byte) : Statement (.rxAppend chunk) := ⟨rfl, rfl⟩
theorem rxParse : Statement .rxParse := ⟨rfl, rfl⟩
theorem rxClear : Statement .rxClear := ⟨rfl, rfl⟩
theorem decodeCoords (payload : List Byte) : Statement (.decodeCoords payload) := ⟨rfl, rfl⟩
theorem encodeVuln (r1 r2 r3 r4 r7 : Bool) : Statement (.encodeVuln r1 r2 r3 r4 r7) := ⟨rfl, rfl⟩
theorem decodeVuln (v : Byte) : Statement (.decodeVuln v) := ⟨rfl, rfl⟩
theorem status : Statement .status := ⟨rfl, rfl⟩

end Encoding

end Sys2Proof.Laws
end

