-- ==== Sys2Proof/Laws/Text.lean ====
section
/-! SUPPORT. Reading back what the printer writes (30_encoding.md R85): octets, numbers, operands, and the operand texts of a line. -/

namespace Sys2Proof.Machine

/-- Two printed hex digits read back as their octet. -/
theorem hexByte_print (b : Byte) : hexByte (hexDigit (b.toNat / 16)) (hexDigit (b.toNat % 16)) = some b := by
  have h : ∀ n < 16, hexValue (hexDigit n) = some n := by decide
  have hb := b.isLt
  rw [hexByte, h _ (by omega), h _ (by omega)]
  simp only [Option.some.injEq]
  apply BitVec.eq_of_toNat_eq
  rw [BitVec.toNat_ofNat, Nat.mod_eq_of_lt (by omega)]; omega

/-- A hex digit is no separator. -/
theorem hexDigit_ne (n : Nat) (h : n < 16) : hexDigit n ≠ ' ' ∧ hexDigit n ≠ ',' ∧ hexDigit n ≠ ';' ∧ hexDigit n ≠ ']' := by
  revert n; decide

/-- A printed octet holds no separator. -/
theorem octet_ne (b : Byte) : ∀ c ∈ printOctet b, c ≠ ' ' ∧ c ≠ ',' ∧ c ≠ ';' ∧ c ≠ ']' := by
  have hb := b.isLt
  intro c hc
  simp only [printOctet, List.mem_cons, List.not_mem_nil, or_false] at hc
  rcases hc with rfl | rfl
  · exact hexDigit_ne _ (by omega)
  · exact hexDigit_ne _ (by omega)

/-- Printed octets read back. -/
theorem readOctets_print (data : List Byte) : readOctets (joinWith [' '] (data.map printOctet) ++ [']']) = some data := by
  induction data with
  | nil => rfl
  | cons b data ih =>
    have hb := b.isLt
    have h1 := hexDigit_ne (b.toNat / 16) (by omega)
    have h2 := hexDigit_ne (b.toNat % 16) (by omega)
    have hx := hexByte_print b
    cases data with
    | nil =>
      simp only [List.map_cons, List.map_nil, joinWith, printOctet, List.cons_append, List.nil_append]
      rw [readOctets.eq_def]
      split
      · rename_i h; simp at h; exact absurd h.1 h1.1
      · rename_i h; simp at h
      · rename_i h; simp at h
      · rename_i h; simp at h; obtain ⟨rfl, rfl⟩ := h; simp [hx]
      · rename_i h; exact absurd rfl (h _ _)
    | cons b' data =>
      simp only [List.map_cons, joinWith, printOctet, List.cons_append, List.nil_append] at ih ⊢
      rw [readOctets.eq_def]
      split
      · rename_i h; simp at h; exact absurd h.1 h1.1
      · rename_i h; simp at h
      · rename_i h; simp at h; obtain ⟨rfl, rfl, rfl⟩ := h
        simp [hx, ih]
      · rename_i h; simp at h
      · rename_i h _; exact absurd rfl (h _ _ _)

/-- Digits are read one after another. -/
theorem readDecimal_append (acc : Nat) (a b : List Char) :
    readDecimal acc (a ++ b) = (readDecimal acc a).bind (fun v => readDecimal v b) := by
  induction a generalizing acc with
  | nil => simp [readDecimal]
  | cons c a ih =>
    simp only [List.cons_append, readDecimal]
    cases decimalValue c with
    | none => rfl
    | some d => exact ih _

theorem decimalValue_digit : ∀ n < 10, decimalValue (Nat.digitChar n) = some n := by decide

/-- A printed number reads back. -/
theorem readDecimal_print (n : Nat) : readDecimal 0 (Nat.toDigits 10 n) = some n := by
  induction n using Nat.strong_induction_on with
  | _ n ih =>
    by_cases h : n < 10
    · rw [Nat.toDigits_of_lt_base h]; simp [readDecimal, decimalValue_digit n h]
    · rw [Nat.toDigits_of_base_le (by decide) (by omega), readDecimal_append, ih _ (by omega)]
      simp [readDecimal, decimalValue_digit (n % 10) (by omega)]; omega

theorem toDigits_ne_nil (n : Nat) : Nat.toDigits 10 n ≠ [] := by
  by_cases h : n < 10
  · rw [Nat.toDigits_of_lt_base h]; simp
  · rw [Nat.toDigits_of_base_le (by decide) (by omega)]; simp

/-- A printed operand reads back. -/
theorem readOperand_print (o : Operand) : readOperand o.type (printOperand o) = some o := by
  cases o with
  | bytes data =>
    show (readOctets (joinWith [' '] (data.map printOctet) ++ [']'])).map Operand.bytes = _
    rw [readOctets_print]; rfl
  | nat n =>
    simp only [Operand.type, printOperand]
    cases h : Nat.toDigits 10 n with
    | nil => exact absurd h (toDigits_ne_nil n)
    | cons c r =>
      show (readDecimal 0 (c :: r)).map Operand.nat = _
      rw [← h, readDecimal_print]; rfl
  | uint8 b =>
    show (hexByte (hexDigit (b.toNat / 16)) (hexDigit (b.toNat % 16))).map Operand.uint8 = _
    rw [hexByte_print]; rfl
  | bool p => cases p <;> rfl

/-- A printed operand list reads back. -/
theorem readOperands_print (ops : List Operand) : readOperands (ops.map Operand.type) (ops.map printOperand) = some ops := by
  induction ops with
  | nil => rfl
  | cons o ops ih => simp [readOperands, readOperand_print, ih]

/-- A text whose two ends are no spaces is trimmed already. -/
theorem trim_of_ends {w : List Char} {a b : Char} {m m' : List Char} (h : w = a :: m) (h2 : w.reverse = b :: m') (ha : a ≠ ' ') (hb : b ≠ ' ') : trim w = w := by
  have : w.dropWhile (· == ' ') = w := by rw [h, List.dropWhile_cons_of_neg (by simpa using ha)]
  rw [trim, this, h2]
  simp only [List.dropWhile, show (b == ' ') = false by simpa using hb]
  rw [← h2, List.reverse_reverse]

/-- A text that stands as one operand of a line: no space at its ends, no comma or semicolon inside. -/
structure IsWord (w : List Char) : Prop where
  first : ∃ a m, w = a :: m ∧ a ≠ ' '
  last : ∃ b m, w = m ++ [b] ∧ b ≠ ' '
  noComma : ∀ c ∈ w, c ≠ ',' ∧ c ≠ ';'

theorem IsWord.trim {w} (h : IsWord w) : Sys2Proof.Machine.trim w = w := by
  obtain ⟨a, m, h1, ha⟩ := h.first
  obtain ⟨b, m', h2, hb⟩ := h.last
  exact trim_of_ends h1 (b := b) (m' := m'.reverse) (by rw [h2]; simp) ha hb

/-- The characters of a joined text. -/
theorem joinWith_mem {sep : List Char} {ws : List (List Char)} {c : Char} (h : c ∈ joinWith sep ws) : c ∈ sep ∨ ∃ w ∈ ws, c ∈ w := by
  induction ws with
  | nil => simp [joinWith] at h
  | cons w ws ih =>
    cases ws with
    | nil => exact .inr ⟨w, by simp, by simpa [joinWith] using h⟩
    | cons w' ws =>
      simp only [joinWith, List.mem_append] at h
      rcases h with (h | h) | h
      · exact .inr ⟨w, by simp, h⟩
      · exact .inl h
      · rcases ih h with h | ⟨x, hx, hc⟩
        · exact .inl h
        · exact .inr ⟨x, by simp at hx ⊢; tauto, hc⟩

/-- A printed operand stands as one operand. -/
theorem operand_word (o : Operand) : IsWord (printOperand o) := by
  have dig : ∀ n, ∀ c ∈ Nat.toDigits 10 n, c ≠ ' ' ∧ c ≠ ',' ∧ c ≠ ';' := by
    intro n c hc
    have := Nat.isDigit_of_mem_toDigits (by decide) (by decide) hc
    refine ⟨?_, ?_, ?_⟩ <;> rintro rfl <;> revert this <;> decide
  cases o with
  | bytes data =>
    refine ⟨⟨_, _, rfl, by decide⟩, ⟨']', '[' :: joinWith [' '] (data.map printOctet), by simp [printOperand], by decide⟩, ?_⟩
    intro c hc
    simp only [printOperand, List.mem_append, List.mem_cons, List.not_mem_nil, or_false] at hc
    rcases hc with (rfl | hc) | rfl
    · decide
    · rcases joinWith_mem hc with h | ⟨w, hw, h⟩
      · simp at h; subst h; decide
      · obtain ⟨b, -, rfl⟩ := List.mem_map.mp hw
        have := octet_ne b c h; exact ⟨this.2.1, this.2.2.1⟩
    · decide
  | nat n =>
    refine ⟨?_, ?_, fun c hc => (dig n c hc).2⟩
    · cases h : Nat.toDigits 10 n with
      | nil => exact absurd h (toDigits_ne_nil n)
      | cons a m => exact ⟨a, m, h, (dig n a (by simp [h])).1⟩
    · obtain ⟨m, b, h⟩ := List.eq_nil_or_concat (Nat.toDigits 10 n) |>.resolve_left (toDigits_ne_nil n)
      rw [List.concat_eq_append] at h
      exact ⟨b, m, h, (dig n b (by simp [h])).1⟩
  | uint8 b =>
    refine ⟨⟨_, _, rfl, by decide⟩, ⟨hexDigit (b.toNat % 16), ['0', 'x', hexDigit (b.toNat / 16)], rfl, (octet_ne b _ (by simp [printOctet])).1⟩, ?_⟩
    intro c hc
    simp only [printOperand, List.mem_cons] at hc
    rcases hc with rfl | rfl | hc
    · decide
    · decide
    · have := octet_ne b c hc; exact ⟨this.2.1, this.2.2.1⟩
  | bool p =>
    cases p
    · exact ⟨⟨'0', [], rfl, by decide⟩, ⟨'0', [], rfl, by decide⟩, fun c hc => by obtain rfl : c = '0' := List.mem_singleton.mp hc; decide⟩
    · exact ⟨⟨'1', [], rfl, by decide⟩, ⟨'1', [], rfl, by decide⟩, fun c hc => by obtain rfl : c = '1' := List.mem_singleton.mp hc; decide⟩

theorem splitCommas_word {w : List Char} (h : ∀ c ∈ w, c ≠ ',') : splitCommas w = [w] := by
  induction w with
  | nil => rfl
  | cons c w ih =>
    rw [splitCommas.eq_def]
    split
    · simp at *
    · rename_i h2; simp at h2; exact absurd h2.1 (h c (by simp))
    · rename_i h2 ; simp at h2; obtain ⟨rfl, rfl⟩ := h2
      rw [ih (fun c hc => h c (by simp [hc]))]

theorem splitCommas_sep {w r : List Char} (h : ∀ c ∈ w, c ≠ ',') : splitCommas (w ++ ',' :: r) = w :: splitCommas r := by
  induction w with
  | nil => rfl
  | cons c w ih =>
    have hc := h c (by simp)
    rw [List.cons_append, splitCommas.eq_def]
    split
    · simp at *
    · rename_i h2; simp at h2; exact absurd h2.1 hc
    · rename_i h2 ; simp at h2; obtain ⟨rfl, rfl⟩ := h2
      rw [ih (fun c hc => h c (by simp [hc]))]

theorem trim_space (w : List Char) : trim (' ' :: w) = trim w := by simp [trim]

/-- Splitting at commas undoes joining with them. -/
theorem split_join (w : List Char) (ws : List (List Char)) (h : ∀ x ∈ w :: ws, IsWord x) :
    (splitCommas (joinWith [',', ' '] (w :: ws))).map trim = w :: ws := by
  induction ws generalizing w with
  | nil =>
    have hw := h w (by simp)
    simp only [joinWith]
    rw [splitCommas_word (fun c hc => (hw.noComma c hc).1)]
    simp [hw.trim]
  | cons w' ws ih =>
    have hw := h w (by simp)
    simp only [joinWith, List.append_assoc, List.cons_append, List.nil_append] at ih ⊢
    rw [splitCommas_sep (fun c hc => (hw.noComma c hc).1)]
    have e : splitCommas (' ' :: joinWith [',', ' '] (w' :: ws)) =
        match splitCommas (joinWith [',', ' '] (w' :: ws)) with
        | x :: xs => (' ' :: x) :: xs
        | [] => [[' ']] := by
      rfl
    have ih := ih w' (fun x hx => h x (by simp at hx ⊢; tauto))
    rw [e]
    cases hs : splitCommas (joinWith [',', ' '] (w' :: ws)) with
    | nil => rw [hs] at ih; simp at ih
    | cons x xs =>
      rw [hs] at ih
      simp only [List.map_cons, trim_space, hw.trim] at ih ⊢
      rw [ih]

/-- A joined text has no space at its ends. -/
theorem join_word (w : List Char) (ws : List (List Char)) (h : ∀ x ∈ w :: ws, IsWord x) :
    (∃ a m, joinWith [',', ' '] (w :: ws) = a :: m ∧ a ≠ ' ') ∧ (∃ b m, joinWith [',', ' '] (w :: ws) = m ++ [b] ∧ b ≠ ' ') := by
  induction ws generalizing w with
  | nil => exact ⟨(h w (by simp)).first, (h w (by simp)).last⟩
  | cons w' ws ih =>
    obtain ⟨a, m, rfl, ha⟩ := (h w (by simp)).first
    obtain ⟨-, b, m', hb, hb'⟩ := ih w' (fun x hx => h x (by simp at hx ⊢; tauto))
    refine ⟨⟨a, _, rfl, ha⟩, ⟨b, a :: m ++ [',', ' '] ++ m', ?_, hb'⟩⟩
    rw [joinWith, hb]
    · simp
    · simp

/-- The operand texts of a printed line are the printed operands. -/
theorem operandTexts_print (o : Operand) (ops : List Operand) :
    operandTexts (' ' :: joinWith [',', ' '] ((o :: ops).map printOperand)) = (o :: ops).map printOperand := by
  have hw : ∀ x ∈ printOperand o :: ops.map printOperand, IsWord x := by
    intro x hx
    simp only [List.mem_cons, List.mem_map] at hx
    rcases hx with rfl | ⟨y, -, rfl⟩ <;> exact operand_word _
  obtain ⟨⟨a, m, h1, ha⟩, ⟨b, m', h2, hb⟩⟩ := join_word _ _ hw
  have ht : trim (' ' :: joinWith [',', ' '] ((o :: ops).map printOperand)) = joinWith [',', ' '] ((o :: ops).map printOperand) := by
    rw [trim_space]
    exact trim_of_ends (b := b) (m' := m'.reverse) h1 (by rw [List.map_cons, h2]; simp) ha hb
  have := split_join _ _ hw
  rw [operandTexts, ht]
  split
  · rename_i h; rw [List.map_cons, h1] at h; cases h
  · exact this

/-- A mnemonic names its row, begins with neither T nor a space, and holds no space or semicolon. -/
theorem mnemonic_facts : ∀ m : Opcode, opcodeNamed (mnemonic m).toList = some m ∧
    (∃ a b r, (mnemonic m).toList = a :: b :: r ∧ a ≠ 'T' ∧ a ≠ ' ') ∧ (∃ b r, (mnemonic m).toList = r ++ [b] ∧ b ≠ ' ') ∧
    (∀ c ∈ (mnemonic m).toList, c ≠ ' ' ∧ c ≠ ';') := by
  intro m
  have all : ∀ c ∈ (mnemonic m).toList, c ≠ ' ' ∧ c ≠ ';' := by
    have h : ((mnemonic m).toList.all fun c => c != ' ' && c != ';') = true := by cases m <;> rfl
    intro c hc
    simpa using List.all_eq_true.mp h c hc
  refine ⟨by cases m <;> decide, ?_, ?_, ?_⟩
  · cases m <;> exact ⟨_, _, _, rfl, by decide, by decide⟩
  · have ne : (mnemonic m).toList ≠ [] := by cases m <;> exact List.cons_ne_nil _ _
    refine ⟨_, _, (List.dropLast_append_getLast ne).symm, ?_⟩
    have := List.getLast_mem ne
    exact (all _ this).1
  · exact all

/-- Cutting a text at its first character of a kind. -/
theorem takeWhile_append {p : Char → Bool} {w r : List Char} (h : ∀ c ∈ w, p c = true) (hr : r = [] ∨ ∃ a m, r = a :: m ∧ p a = false) :
    (w ++ r).takeWhile p = w ∧ (w ++ r).dropWhile p = r := by
  induction w with
  | nil =>
    rcases hr with rfl | ⟨a, m, rfl, ha⟩ <;> simp_all
  | cons c w ih =>
    have := ih (fun c hc => h c (by simp [hc]))
    have hc := h c (by simp)
    simp_all

/-- The operand values of a command have the types of its row. -/
theorem signature_eq (i : Instr) : (opcodeOf i).signature = (operandsOf i).map Operand.type := by cases i <;> rfl

end Sys2Proof.Machine
end

