-- ==== Sys2Proof/Tests/Slice0.lean ====
section
/-! SUPPORT. The model's own tests. Every expected value is the spec's: the vectors of 95_test_vectors.md (named V-... below), the
encodings of 30_encoding.md R71, and the tables of 10_state.md and 60_exceptions.md. Each theorem named `witness_<Name>...` shows
inputs that meet the hypotheses of the obligation of that name, clause by clause. -/

namespace Sys2Proof.Tests

open Sys2Proof Sys2Proof.Machine

/-! ## Helpers -/

/-- The reset state under the test configuration `REF`. -/
def ref : State := State.resetWith referenceCfg

/-- `REF` without the payload decoder. -/
def bare : State := State.resetWith { referenceCfg with hasPayloadDecoder := false }

/-- `REF` with a receive buffer of `cap` bytes that holds `buf`. -/
def bounded (cap : Nat) (buf : List Byte) : State := { State.resetWith { referenceCfg with rxbufCap := .bytes cap } with rxbuf := buf }

/-- `s` with RXBUF holding `buf`. -/
def holding (buf : List Byte) (s : State) : State := { s with rxbuf := buf }

/-- The response of a command, if it answers a next state. -/
def answer (i : Instr) (s : State) : Option Response :=
  match exec i s with
  | .next t => t.response
  | .fault _ => none
  | .refused _ => none

/-- RXBUF after a command. -/
def rxAfter (i : Instr) (s : State) : Option (List Byte) :=
  match exec i s with
  | .next t => some t.rxbuf
  | .fault _ => none
  | .refused _ => none

/-- ACC8, ACC16 and FAULT after a command. -/
def accsAfter (i : Instr) (s : State) : Option (Option Byte × Option Half × Byte) :=
  match exec i s with
  | .next t => some (t.acc8, t.acc16, t.fault)
  | .fault _ => none
  | .refused _ => none

/-- What a step that has `e` as its next event answers and leaves in FAULT. -/
def stepped (e : Event) (s : State) : Option (Option Response × Byte) :=
  match step (issueFirst e s) with
  | .next t => some (t.response, t.fault)
  | .fault _ => none
  | .refused _ => none

/-- The instruction a pair decodes to. -/
def decoded (c : Command) : Option Instr :=
  match decode c with
  | .ok i => some i
  | .error _ => none

/-- A computation's value. -/
def valueOf {α : Type} (r : Except Fault α) : Option α :=
  match r with
  | .ok v => some v
  | .error _ => none

/-- The frame of V-B1. -/
def f1 : List Byte := [0xA5, 0x01, 0x00, 0x01, 0x36, 0x0C, 0x02, 0x05, 0xB8, 0xC4]

/-- The frame of V-B2. -/
def f0 : List Byte := [0xA5, 0x00, 0x00, 0x00, 0xC3, 0x0C, 0x02, 0xFE, 0x09]

/-- The payload of V-D1. -/
def telemetry : List Byte :=
  [0xB8, 0x0B, 0x64, 0x00, 0x00, 0x00, 0x00, 0x00, 0x00, 0x00, 0x05, 0x00, 0xFF, 0xFF, 0xDC, 0x05, 0xF0, 0x0A, 0xDD, 0x05,
   0x01, 0x00, 0x00, 0x00]

/-! ## Well-formedness: one ill-formed term for each check, refused -/

theorem test_command_wf_accepts : Command.wf ⟨0x01, [.bytes [0xA5], .nat 1]⟩ = true := by decide
theorem test_command_wf_wrong_type : Command.wf ⟨0x04, [.nat 1]⟩ = false := by decide
theorem test_command_wf_missing_operand : Command.wf ⟨0x01, [.bytes [0xA5]]⟩ = false := by decide
theorem test_event_wf_accepts : Event.wf (.command .transport ⟨0x21, [.bytes []]⟩) = true := by decide
theorem test_event_wf_transport_parses : Event.wf (.command .transport ⟨0x22, []⟩) = false := by decide
theorem test_event_wf_host_operands : Event.wf (.command .host ⟨0x22, [.nat 0]⟩) = false := by decide
theorem test_cfg_wf_accepts : Cfg.wf referenceCfg = true := by decide
theorem test_cfg_wf_unsorted : Cfg.wf { referenceCfg with knownCmds := [0x0305, 0x020C] } = false := by decide
theorem test_cfg_wf_repeated : Cfg.wf { referenceCfg with knownCmds := [0x020C, 0x020C] } = false := by decide
theorem test_result_wf_accepts : ParseResult.wf { code := .incomplete, start := some 0 } = true := by decide
theorem test_result_wf_missing : ParseResult.wf { code := .headerCrcMismatch } = false := by decide
theorem test_result_wf_extra : ParseResult.wf { code := .noStartByte, start := some 0 } = false := by decide
theorem test_result_wf_length :
    ParseResult.wf { code := .frame, start := some 0, len := some 2, cmd := some 0, seq := some 0, payload := some [5] } = false := by
  decide

/-! ## Decoding: the code octets of R71, unit field then function field, written bit by bit -/

theorem test_decode_crc8 : decoded ⟨0b0000_0001, [.bytes [0xA5, 0x01], .nat 2]⟩ = some (.crc8 [0xA5, 0x01] 2) := by decide
theorem test_decode_crc16 : decoded ⟨0b0000_0010, [.bytes [0xA5, 0x01], .nat 1]⟩ = some (.crc16 [0xA5, 0x01] 1) := by decide
theorem test_decode_crc8Init : decoded ⟨0b0000_0011, []⟩ = some .crc8Init := by decide
theorem test_decode_crc8Byte : decoded ⟨0b0000_0100, [.uint8 0xA5]⟩ = some (.crc8Byte 0xA5) := by decide
theorem test_decode_crc8Read : decoded ⟨0b0000_0101, []⟩ = some .crc8Read := by decide
theorem test_decode_crc16Init : decoded ⟨0b0000_0110, []⟩ = some .crc16Init := by decide
theorem test_decode_crc16Byte : decoded ⟨0b0000_0111, [.uint8 0xA5]⟩ = some (.crc16Byte 0xA5) := by decide
theorem test_decode_crc16Read : decoded ⟨0b0000_1000, []⟩ = some .crc16Read := by decide
theorem test_decode_build :
    decoded ⟨0b0001_0000, [.bytes [0x05], .uint8 0x01, .uint8 0x02, .uint8 0x0C]⟩ = some (.build [0x05] 0x01 0x02 0x0C) := by decide
theorem test_decode_feed : decoded ⟨0b0010_0000, [.bytes [0xA5]]⟩ = some (.feed [0xA5]) := by decide
theorem test_decode_rxAppend : decoded ⟨0b0010_0001, [.bytes [0xA5]]⟩ = some (.rxAppend [0xA5]) := by decide
theorem test_decode_rxParse : decoded ⟨0b0010_0010, []⟩ = some .rxParse := by decide
theorem test_decode_rxClear : decoded ⟨0b0010_0011, []⟩ = some .rxClear := by decide
theorem test_decode_decodeCoords : decoded ⟨0b0011_0000, [.bytes [0xA5]]⟩ = some (.decodeCoords [0xA5]) := by decide
theorem test_decode_encodeVuln :
    decoded ⟨0b0011_0001, [.bool true, .bool false, .bool true, .bool false, .bool false]⟩ =
      some (.encodeVuln true false true false false) := by decide
theorem test_decode_decodeVuln : decoded ⟨0b0011_0010, [.uint8 0x05]⟩ = some (.decodeVuln 0x05) := by decide
theorem test_decode_status : decoded ⟨0b0100_0000, []⟩ = some .status := by decide

/-- A row's word, and a word of another width. -/
theorem test_table_word : decodeTableWord 8 0x10 = some (.build [] 0 0 0) ∧ decodeTableWord 16 0x10 = none := by decide

/-- Every row's word runs as the first command after reset, whatever the configuration of the instance. -/
theorem test_withFetchWord_runs :
    ∀ w ∈ [0x01, 0x02, 0x03, 0x04, 0x05, 0x06, 0x07, 0x08, 0x10, 0x20, 0x21, 0x22, 0x23, 0x30, 0x31, 0x32, 0x40],
      ∀ i, decodeTableWord 8 w = some i → step (State.reset.withFetchWord 8 w) = exec i State.reset := by
  intro w hw i h
  fin_cases hw <;> cases h <;> rfl

/-- ... and each of them answers a next state. -/
theorem test_withFetchWord_completes :
    ∀ w ∈ [0x01, 0x02, 0x03, 0x04, 0x05, 0x06, 0x07, 0x08, 0x10, 0x20, 0x21, 0x22, 0x23, 0x30, 0x31, 0x32, 0x40],
      ∃ t, step (State.reset.withFetchWord 8 w) = .next t := by
  intro w hw
  fin_cases hw <;> exact ⟨_, rfl⟩

/-! ## Illegal codes, reset and idling (V-F1 to V-F5) -/

theorem test_illegal_codes : ∀ op ∈ [0x00, 0x09, 0x50, 0x24], stepped (.command .host ⟨op, []⟩) ref = some (some (.err .illegalOp), 0x01) := by
  decide
theorem test_illegal_sticky : stepped (.command .host ⟨0xFF, []⟩) { ref with fault := 0x01 } = some (some (.err .illegalOp), 0x01) := by decide
theorem test_illegal_any_operands : stepped (.command .host ⟨0x24, [.nat 1]⟩) ref = some (some (.err .illegalOp), 0x01) := by decide
theorem test_not_a_command : step (issueFirst (.command .host ⟨0x40, [.nat 1]⟩) ref) = .refused .notACommand := rfl
theorem test_reset_event : stepped .reset { ref with fault := 0x1F } = some (none, 0) := by decide
theorem test_idle : step ref = .next ref := rfl

/-! ## The reference tables against their eight shift steps (R109, R110) -/

theorem test_rm8Table : ∀ i : Fin 256, rm8Table[i] = Nat.repeat rm8Shift 8 (BitVec.ofNat 8 i) := by decide +kernel
theorem test_rm16Table : ∀ i : Fin 256, rm16Table[i] = Nat.repeat rm16Shift 8 (BitVec.ofNat 16 i) := by decide +kernel

/-! ## The checksum engine (V-C, V-S) -/

theorem test_crc8_check : answer (.crc8 [0x31, 0x32, 0x33, 0x34, 0x35, 0x36, 0x37, 0x38, 0x39] 9) ref = some (.ok (.uint8 0x0B)) := by
  decide +kernel -- V-C6
theorem test_crc8_front : answer (.crc8 [0xA5, 0x01, 0x00, 0x01] 2) ref = some (.ok (.uint8 0xCE)) := by decide +kernel -- V-C8
theorem test_crc16_check : answer (.crc16 [0x31, 0x32, 0x33, 0x34, 0x35, 0x36, 0x37, 0x38, 0x39] 9) ref = some (.ok (.uint16 0x6F91)) := by
  decide +kernel -- V-C7
theorem test_crc16_length : answer (.crc16 [] 1) ref = some (.err .crcLength) ∧ accsAfter (.crc16 [] 1) ref = some (none, none, 0x02) := by
  decide +kernel -- V-C12
theorem test_crc8Init : accsAfter .crc8Init { ref with acc8 := some 0x36 } = some (some 0xFF, none, 0) := by decide +kernel -- V-S10
theorem test_crc8Byte :
    answer (.crc8Byte 0x01) { ref with acc8 := some 0xA5 } = some (.ok (.uint8 0xCE)) ∧
      accsAfter (.crc8Byte 0x01) { ref with acc8 := some 0xA5 } = some (some 0xCE, none, 0) := by decide +kernel -- V-S7
theorem test_crc8Byte_uninit : accsAfter (.crc8Byte 0xA5) ref = some (none, none, 0x10) := by decide +kernel -- V-S1
theorem test_crc8Read : answer .crc8Read { ref with acc8 := some 0xFF } = some (.ok (.uint8 0xFF)) := by decide +kernel -- V-S5
theorem test_crc16Init : accsAfter .crc16Init { ref with acc8 := some 0x00 } = some (some 0x00, some 0xFFFF, 0) := by decide +kernel -- V-S12
theorem test_crc16Byte : answer (.crc16Byte 0x01) { ref with acc16 := some 0xFD20 } = some (.ok (.uint16 0x3076)) := by
  decide +kernel -- section 2.2, second byte
theorem test_crc16Read : answer .crc16Read { ref with acc16 := some 0xC4B8 } = some (.ok (.uint16 0xC4B8)) := by decide +kernel
theorem test_crc16Read_uninit : accsAfter .crc16Read ref = some (none, none, 0x10) := by decide +kernel -- V-S3

/-- The normal form of the table update, by hand from R100: `(0x1234 << 8) ^ CRC16_TABLE[0x12 ^ 0xA5]`, with entry 0xB7 of the table. -/
theorem test_step16_normal :
    step16 { referenceCfg with crc16Form := .normal } 0x1234 0xA5 = 0x3400 ^^^ 0xC134 := by decide +kernel

/-! ## The frame builder (V-B) -/

theorem test_build : answer (.build [0x05] 0x01 0x02 0x0C) ref = some (.ok (.bytes f1)) := by decide +kernel -- V-B1
theorem test_build_three : answer (.build [0x01, 0x02, 0x03] 0xFF 0x03 0x05) ref =
    some (.ok (.bytes [0xA5, 0x03, 0x00, 0xFF, 0x12, 0x05, 0x03, 0x01, 0x02, 0x03, 0x55, 0x44])) := by decide +kernel -- V-B3

/-! ## The parser (V-P, V-R, V-A) -/

theorem test_feed : answer (.feed ([0x00, 0x11] ++ f1)) ref = some (.ok (.parse
    { code := .frame, start := some 2, len := some 1, cmd := some 0x020C, seq := some 0x01, payload := some [0x05] })) := by
  decide +kernel -- V-P2
theorem test_feed_unknown : answer (.feed [0xA5, 0x01, 0x00, 0x01, 0x36, 0x0D, 0x02, 0x05, 0xB8, 0xC4]) ref = some (.ok (.parse
    { code := .unknownCommand, start := some 0, len := some 1, cmd := some 0x020D, seq := some 0x01, payload := some [0x05] })) := by
  decide +kernel -- V-P14
theorem test_rxAppend : answer (.rxAppend [0x01, 0x36]) (holding [0xA5, 0x01, 0x00] ref) = some (.ok (.nat 5)) ∧
    rxAfter (.rxAppend [0x01, 0x36]) (holding [0xA5, 0x01, 0x00] ref) = some [0xA5, 0x01, 0x00, 0x01, 0x36] := by decide +kernel -- V-A1
theorem test_rxAppend_overflow : answer (.rxAppend (List.replicate 7 0)) (bounded 16 (List.replicate 10 0)) = some (.err .rxOverflow) ∧
    rxAfter (.rxAppend (List.replicate 7 0)) (bounded 16 (List.replicate 10 0)) = some (List.replicate 10 0) := by decide +kernel -- V-A3
theorem test_rxParse : rxAfter .rxParse (holding ([0xA5, 0x00] ++ f1) ref) = some ([0x00] ++ f1) := by decide +kernel -- V-R5
theorem test_rxParse_drop :
    rxAfter .rxParse (holding [0xA5, 0x01, 0x00, 0x01, 0x36] (State.resetWith { referenceCfg with incompletePolicy := .drop })) = some [] := by
  decide +kernel -- V-R4
theorem test_rxClear : rxAfter .rxClear (holding [0xA5, 0xFF, 0xFF] ref) = some [] := by decide +kernel -- V-A5

/-! ## The payload decoder and STATUS (V-D, V-F) -/

theorem test_decodeCoords : answer (.decodeCoords telemetry) ref = some (.ok (.coords
    { r1 := ⟨true, 2800, 100⟩, r2 := ⟨false, 0, 0⟩, r3 := ⟨true, 0, 5⟩, r4 := ⟨true, 2800, 1500⟩, r5 := ⟨true, 2800, 1500⟩,
      r7 := ⟨true, 1, 0⟩ })) := by decide +kernel -- V-D1
theorem test_decodeCoords_absent : answer (.decodeCoords []) bare = some (.err .illegalOp) := by decide +kernel -- V-D12
theorem test_encodeVuln : answer (.encodeVuln true false true false true) ref = some (.ok (.uint8 0x15)) := by decide +kernel -- V-D8
theorem test_decodeVuln : answer (.decodeVuln 0x10) ref = some (.ok (.flags ⟨false, false, false, false, true⟩)) := by
  decide +kernel -- V-D11
theorem test_decodeVuln_reserved : answer (.decodeVuln 0xE0) ref = some (.ok (.flags ⟨false, false, false, false, false⟩)) := by
  decide +kernel -- V-D10
theorem test_status : answer .status { holding [1, 2, 3] ref with fault := 0x12, acc8 := some 0x36 } =
    some (.ok (.status ⟨0x12, 3, true, false⟩)) := by decide +kernel -- V-F7

/-! ## Program text (R85, R86) -/

theorem test_assemble_transport :
    assembleLine "T: RX_APPEND [01 36]  ; read 2".toList = some [.command .transport ⟨0x21, [.bytes [0x01, 0x36]]⟩] := by decide
theorem test_assemble_build : assembleLine "BUILD [05], 0x01, 0x02, 0x0C".toList =
    some [.command .host ⟨0x10, [.bytes [0x05], .uint8 0x01, .uint8 0x02, .uint8 0x0C]⟩] := by decide
theorem test_assemble_stream : assembleLine "CRC8_STREAM [A5 01]".toList =
    some [.command .host ⟨0x03, []⟩, .command .host ⟨0x04, [.uint8 0xA5]⟩, .command .host ⟨0x04, [.uint8 0x01]⟩,
      .command .host ⟨0x05, []⟩] := by decide
theorem test_assemble_raw : assembleLine "OP 0x24".toList = some [.command .host ⟨0x24, []⟩] := by decide
theorem test_assemble_refuses : assembleLine "CRC8 [A5 01]".toList = none := by decide

/-! ## Witnesses: encoding and the step -/

theorem witness_CommandCodesDecodeToTheirRows :
    (∀ op ∈ ([0x00, 0x09, 0x0F, 0x11, 0x24, 0x33, 0x41, 0xFF] : List Byte),
      op ∉ ([0x01, 0x02, 0x03, 0x04, 0x05, 0x06, 0x07, 0x08, 0x10, 0x20, 0x21, 0x22, 0x23, 0x30, 0x31, 0x32, 0x40] : List Byte)) ∧
    5 ≤ (5 : BitVec 4).toNat ∧ 5 ≤ (15 : BitVec 4).toNat ∧ 5 ≤ (unitField 0x50).toNat ∧ 5 ≤ (unitField 0xFF).toNat := by decide

theorem witness_DecodeInvertsEncode : decode ⟨0x04, [.uint8 0xFF]⟩ = .ok (.crc8Byte 0xFF) ∧
    (⟨0x04, [.uint8 0xFF]⟩ : Command) = encode (.crc8Byte 0xFF) := ⟨rfl, rfl⟩

theorem witness_StepRunsDecodedCommand :
    (issueFirst (.command .transport ⟨0x21, [.bytes [0xA5]]⟩) ref).inbox = .command .transport ⟨0x21, [.bytes [0xA5]]⟩ :: [] ∧
    decode ⟨0x21, [.bytes [0xA5]]⟩ = .ok (.rxAppend [0xA5]) := ⟨rfl, rfl⟩

theorem witness_IllegalCodesRaiseIllegalOp_unlisted :
    (issueFirst (.command .host ⟨0x00, [.nat 1]⟩) ref).inbox = .command .host ⟨0x00, [.nat 1]⟩ :: [] ∧
    (0x00 : Byte) ∉ ([0x01, 0x02, 0x03, 0x04, 0x05, 0x06, 0x07, 0x08, 0x10, 0x20, 0x21, 0x22, 0x23, 0x30, 0x31, 0x32, 0x40] : List Byte) :=
  ⟨rfl, by decide⟩

theorem witness_IllegalCodesRaiseIllegalOp_absent :
    (issueFirst (.command .host ⟨0x32, [.uint8 5]⟩) bare).inbox = .command .host ⟨0x32, [.uint8 5]⟩ :: [] ∧
    (0x32 : Byte) ∈ ([0x30, 0x31, 0x32] : List Byte) ∧ bare.cfg.hasPayloadDecoder = false := ⟨rfl, by decide, rfl⟩

theorem witness_ResetPutsEveryPieceOfState :
    ({ ref with acc8 := some 1, acc16 := some 2, rxbuf := [3], fault := 4, inbox := [.reset, .reset] } : State).inbox =
      .reset :: [.reset] := rfl

theorem witness_IssuableStepNeverStops : State.Issuable { ref with inbox :=
    [.command .transport ⟨0x21, [.bytes [0xA5]]⟩, .command .host ⟨0x22, []⟩, .command .host ⟨0xFF, []⟩, .reset] } := by
  unfold State.Issuable; decide

/-! ## Witnesses: the checksum engine -/

theorem witness_CrcFunctionsFollowTheTables : referenceCfg.crc16Form = .reflected ∧
    ({ referenceCfg with crc16Form := .normal } : Cfg).crc16Form = .normal ∧ 0 ≤ ([] : List Byte).length ∧ 1 ≤ ([0xA5] : List Byte).length := by
  decide

theorem witness_WholeBufferCrcCommands :
    (0 ≤ ([] : List Byte).length ∧ 4 ≤ ([0xA5, 1, 0, 1] : List Byte).length) ∧ ([] : List Byte).length < 1 ∧ ([0x01] : List Byte).length < 2 := by
  decide

theorem witness_StreamingCrc8Commands : ({ ref with acc8 := some 0xA5 } : State).acc8 = some 0xA5 ∧ ref.acc8 = none := ⟨rfl, rfl⟩
theorem witness_StreamingCrc16Commands : ({ ref with acc16 := some 0xFD20 } : State).acc16 = some 0xFD20 ∧ ref.acc16 = none := ⟨rfl, rfl⟩

theorem witness_StreamingEqualsWholeBufferCrc :
    Instr.crc8Init ∉ [.crc8Byte 0xA5, .status, .crc16Init, .crc8Read, .crc8Byte 0x01] ∧
    Instr.crc16Init ∉ [.crc16Byte 0xA5, .crc8Init, .rxClear, .crc16Byte 0x01] := by decide

theorem witness_CrcDependsOnFirstBytesOnly :
    2 ≤ ([1, 2] : List Byte).length ∧ 2 ≤ ([1, 2, 3] : List Byte).length ∧ ([1, 2] : List Byte).take 2 = ([1, 2, 3] : List Byte).take 2 ∧
    ref.cfg = ({ ref with acc8 := some 9, fault := 1 } : State).cfg := ⟨by decide, by decide, rfl, rfl⟩

theorem witness_ReferenceCrc8DetectsSingleBitErrors : 0 < 32 ∧ 31 < 32 := by decide

/-- A configuration whose CRC-8 table is the identity: legal, since no entry repeats. -/
def identityCfg : Cfg := { referenceCfg with crc8Table := Vector.ofFn (fun i => BitVec.ofNat 8 i.val) }

theorem identityCfg_legal : LegalCfg identityCfg :=
  ⟨headerSensitive_of_injective (by
    intro i j h
    simpa [tableEntry8, identityCfg] using h)⟩

theorem witness_SingleBitHeaderErrorIsRejected : LegalCfg (State.resetWith identityCfg).cfg ∧ ([0x05] : List Byte).length ≤ 65535 ∧
    (∃ f, buildFrame (State.resetWith identityCfg).cfg [0x05] 0x01 0x02 0x0C = .ok f) ∧ (8 ≤ 8 ∧ 8 < 32) ∧ (8 ≤ 31 ∧ 31 < 32) :=
  ⟨identityCfg_legal, by decide, ⟨_, buildFrame_eq _ _ _ _ _⟩, by decide, by decide⟩

/-! ## Witnesses: the frame builder and the parser -/

theorem witness_BuildAnswersTheFrame : (List.replicate 65535 (0 : Byte)).length ≤ 65535 ∧ 65535 < (List.replicate 65536 (0 : Byte)).length := by
  simp only [List.length_replicate]; decide

/-- Steps 1 and 2: no start byte, and six bytes from the start byte on (V-P3, V-P7). -/
theorem witness_ParseFollowsTheSevenSteps_short : (∀ b ∈ ([0x00, 0x11] : List Byte), b ≠ 0xA5) ∧
    ([0x01, 0x00, 0x01, 0x36, 0x0C] : List Byte).length < 6 := by decide

/-- Step 3: the header of F1 passes against 0x36 and fails against 0x37 (V-P8 in kind). -/
theorem witness_ParseFollowsTheSevenSteps_header : valueOf (crc8 referenceCfg [0xA5, 0x01, 0x00, 0x01] 4) = some 0x36 ∧
    (0x36 : Byte) ≠ 0x37 := by decide +kernel

/-- Step 4: F1 without its last byte has 2 bytes after the command id, one short (V-P10). -/
theorem witness_ParseFollowsTheSevenSteps_present : ([0x05, 0xB8] : List Byte).length < (0x01 : Byte).toNat + 256 * (0x00 : Byte).toNat + 2 := by
  decide

/-- Steps 5 to 7 on F1 and on its neighbours: an unknown command (V-P14), a wrong CRC-16 (V-P13), and the frame (V-P1). -/
theorem witness_ParseFollowsTheSevenSteps_body : ([0x05] : List Byte).length = (0x01 : Byte).toNat + 256 * (0x00 : Byte).toNat ∧
    (0x020C : Half).toNat = (0x0C : Byte).toNat + 256 * (0x02 : Byte).toNat ∧
    (0x020D : Half).toNat = (0x0D : Byte).toNat + 256 * (0x02 : Byte).toNat ∧
    (0xC4B8 : Half).toNat = (0xB8 : Byte).toNat + 256 * (0xC4 : Byte).toNat ∧
    (0xC438 : Half).toNat = (0x38 : Byte).toNat + 256 * (0xC4 : Byte).toNat ∧
    valueOf (crc16 referenceCfg [0xA5, 0x01, 0x00, 0x01, 0x36, 0x0C, 0x02, 0x05] 8) = some 0xC4B8 ∧
    (0x020C : Half) ∈ referenceCfg.knownCmds ∧ (0x020D : Half) ∉ referenceCfg.knownCmds ∧ (0xC4B8 : Half) ≠ 0xC438 := by
  decide +kernel

/-- Each outcome of a parse happens (V-P1, V-P14, V-P4, V-P6, V-P10, V-P9, V-P11): the premise of the statements about results. -/
theorem witness_ParseResultCarriesItsFields :
    (valueOf (parse referenceCfg f1)).map ParseResult.code = some .frame ∧
    (valueOf (parse referenceCfg [0xA5, 0x01, 0x00, 0x01, 0x36, 0x0D, 0x02, 0x05, 0xB8, 0xC4])).map ParseResult.code = some .unknownCommand ∧
    (valueOf (parse referenceCfg [0x00, 0x01, 0x02])).map ParseResult.code = some .noStartByte ∧
    valueOf (parse referenceCfg [0x01, 0x02, 0xA5]) = some { code := .incomplete, start := some 2 } ∧
    valueOf (parse referenceCfg (f1.take 9)) = some { code := .incomplete, start := some 0, len := some 1 } ∧
    (valueOf (parse referenceCfg [0xA5, 0x03, 0x00, 0x01, 0x36, 0x0C, 0x02, 0x05, 0xB8, 0xC4])).map ParseResult.code =
      some .headerCrcMismatch ∧
    (valueOf (parse referenceCfg [0xA5, 0x01, 0x00, 0x01, 0x36, 0x0C, 0x02, 0x04, 0xB8, 0xC4])).map ParseResult.code =
      some .bodyCrcMismatch := by decide +kernel

/-- The consume table of section 2.5 at the outcomes above, under both policies. -/
theorem witness_ConsumeFollowsItsTable :
    referenceCfg.incompletePolicy = .retain ∧ ({ referenceCfg with incompletePolicy := .drop } : Cfg).incompletePolicy = .drop ∧
    valueOf (consume referenceCfg { code := .noStartByte } 3) = some 3 ∧
    valueOf (consume referenceCfg { code := .incomplete, start := some 2 } 3) = some 2 ∧
    valueOf (consume { referenceCfg with incompletePolicy := .drop } { code := .incomplete, start := some 2 } 3) = some 3 ∧
    valueOf (consume referenceCfg { code := .headerCrcMismatch, start := some 0 } 10) = some 1 ∧
    valueOf (consume referenceCfg { code := .bodyCrcMismatch, start := some 0, len := some 1 } 10) = some 1 ∧
    valueOf (consume referenceCfg
      { code := .unknownCommand, start := some 0, len := some 2, cmd := some 0x1234, seq := some 7, payload := some [9, 8] } 11) = some 11 ∧
    valueOf (consume referenceCfg { code := .frame, start := some 2, len := some 1, cmd := some 0x020C, seq := some 1, payload := some [5] } 12) =
      some 12 := by decide +kernel

/-- The capacity reached exactly, and one byte beyond it (V-A4, V-A3); without a capacity the first premise always holds. -/
theorem witness_ReceiveBufferAppendAndClear : (bounded 16 (List.replicate 10 0)).cfg.rxbufCap = .bytes 16 ∧ ref.cfg.rxbufCap = .unbounded ∧
    (bounded 16 (List.replicate 10 0)).rxbuf.length + (List.replicate 6 (0 : Byte)).length ≤ 16 ∧
    16 < (bounded 16 (List.replicate 10 0)).rxbuf.length + (List.replicate 7 (0 : Byte)).length := by
  exact ⟨rfl, rfl, by decide, by decide⟩

theorem witness_AppendsConcatenate : ∀ cap, (bounded 4 [0xA5]).cfg.rxbufCap = .bytes cap →
    (bounded 4 [0xA5]).rxbuf.length + ([1, 2] : List Byte).length + ([3] : List Byte).length ≤ cap := by
  intro cap h; cases h; decide

theorem witness_ShortBuffersAreIncompleteOrNoStart :
    (([0x01, 0x02, 0xA5, 0x00, 0x00, 0xA5] : List Byte).length < 7 ∧ 0xA5 ∈ ([0x01, 0x02, 0xA5, 0x00, 0x00, 0xA5] : List Byte)) ∧
    (([] : List Byte).length < 7 ∧ 0xA5 ∉ ([] : List Byte)) := by decide

theorem witness_GarbageMovesOnlyTheStart : ∀ b ∈ ([0x00, 0x11] : List Byte), b ≠ 0xA5 := by decide

theorem witness_BuiltFrameParsesBack : (List.replicate 65535 (0xA5 : Byte)).length ≤ 65535 ∧
    (0x020C : Half).toNat = 256 * (0x02 : Byte).toNat + (0x0C : Byte).toNat ∧ (0x020C : Half) ∈ ref.cfg.knownCmds ∧
    (0xFFFF : Half).toNat = 256 * (0xFF : Byte).toNat + (0xFF : Byte).toNat ∧ (0xFFFF : Half) ∉ ref.cfg.knownCmds :=
  ⟨by simp only [List.length_replicate]; decide, by decide, by decide, by decide, by decide⟩

theorem build_f1 : buildFrame referenceCfg [0x05] 0x01 0x02 0x0C = .ok f1 := by rfl
theorem build_f0 : buildFrame referenceCfg [] 0x00 0x02 0x0C = .ok f0 := by rfl

/-- The buffer of V-R2. -/
theorem witness_FramesComeOutInOrder :
    (∀ f ∈ [f1, f0], ∃ payload seq c0 c1, payload.length ≤ 65535 ∧ buildFrame ref.cfg payload seq c0 c1 = .ok f) ∧
    (holding (f1 ++ f0 ++ [0xA5, 0x01, 0x00]) ref).rxbuf = [f1, f0].flatten ++ [0xA5, 0x01, 0x00] := by
  refine ⟨?_, rfl⟩
  intro f hf
  rcases List.mem_cons.mp hf with rfl | hf
  · exact ⟨_, _, _, _, by decide, build_f1⟩
  · rw [List.mem_singleton.mp hf]; exact ⟨_, _, _, _, by decide, build_f0⟩

/-- The buffer of V-R5: the one 0xA5 of the garbage fails its header check, `crc8([A5 00 A5 01]) = 0x8C` against byte `00`. -/
theorem witness_ReceivePathFindsFrameBehindGarbage : ([0x05] : List Byte).length ≤ 65535 ∧
    buildFrame (holding ([0xA5, 0x00] ++ f1) ref).cfg [0x05] 0x01 0x02 0x0C = .ok f1 ∧
    (0x020C : Half).toNat = 256 * (0x02 : Byte).toNat + (0x0C : Byte).toNat ∧ (0x020C : Half) ∈ ref.cfg.knownCmds ∧
    (holding ([0xA5, 0x00] ++ f1) ref).rxbuf = [0xA5, 0x00] ++ f1 ∧
    (∀ i, ([0xA5, 0x00] : List Byte)[i]? = some 0xA5 → ∃ v b, crc8 ref.cfg ((([0xA5, 0x00] ++ f1).drop i).take 4) 4 = .ok v ∧
      ([0xA5, 0x00] ++ f1)[i + 4]? = some b ∧ v ≠ b) := by
  refine ⟨by decide, build_f1, by decide, by decide, rfl, ?_⟩
  intro i h
  match i, h with
  | 0, _ => exact ⟨0x8C, 0x00, rfl, rfl, by decide⟩
  | 1, h => simp at h
  | i + 2, h => simp at h

/-- The noise of program P4 in a buffer of 24 bytes: L = 16 needs 25. -/
theorem witness_StalledCandidateNeverCompletes :
    (bounded 24 [0xA5, 0x10, 0x00, 0x00, 0x89, 0x00, 0x00]).cfg.incompletePolicy = .retain ∧
    (bounded 24 [0xA5, 0x10, 0x00, 0x00, 0x89, 0x00, 0x00]).cfg.rxbufCap = .bytes 24 ∧ 24 < 9 + 16 ∧
    parse (bounded 24 [0xA5, 0x10, 0x00, 0x00, 0x89, 0x00, 0x00]).cfg (bounded 24 [0xA5, 0x10, 0x00, 0x00, 0x89, 0x00, 0x00]).rxbuf =
      .ok { code := .incomplete, start := some 0, len := some 16 } ∧
    Instr.rxClear ∉ [.rxAppend [0x00], .rxParse] := ⟨rfl, rfl, by decide, rfl, by decide⟩

/-! ## Witnesses: the payload decoder, faults and frames -/

theorem witness_DecodeCoordsAnswersSixEntries :
    ref.cfg.hasPayloadDecoder = true ∧ bare.cfg.hasPayloadDecoder = false ∧ (telemetry.take 23).length < 24 ∧ 24 ≤ telemetry.length := by decide

theorem witness_VulnerabilityMaskCommands : ref.cfg.hasPayloadDecoder = true ∧ bare.cfg.hasPayloadDecoder = false := ⟨rfl, rfl⟩

/-- A command of each fault code answers it: the premise of the statements about faults. -/
theorem witness_FaultsArePrecise :
    answer (.encodeVuln true true true true true) bare = some (.err .illegalOp) ∧ answer (.crc8 [0x01] 2) ref = some (.err .crcLength) ∧
    answer (.rxAppend (List.replicate 7 0)) (bounded 16 (List.replicate 10 0)) = some (.err .rxOverflow) ∧
    answer (.crc16Byte 0x00) ref = some (.err .accUninit) := by decide +kernel

theorem witness_FaultsArePrecise_build : exec (.build (List.replicate 65536 0) 0 2 12) ref = .next (raise .buildLength ref) := by
  rw [exec, execBuild, if_pos]
  simp only [List.length_replicate]; decide

/-- Each row of the table of R211 but the third (its witness is the theorem above), as an issued pair. -/
theorem witness_FaultsRaisedExactlyByTheTable :
    stepped (.command .host ⟨0x00, []⟩) ref = some (some (.err .illegalOp), 0x01) ∧
    stepped (.command .host ⟨0x31, [.nat 1]⟩) bare = some (some (.err .illegalOp), 0x01) ∧
    stepped (.command .host ⟨0x02, [.bytes [], .nat 1]⟩) ref = some (some (.err .crcLength), 0x02) ∧
    stepped (.command .transport ⟨0x21, [.bytes [0xA5]]⟩) (bounded 0 []) = some (some (.err .rxOverflow), 0x08) ∧
    stepped (.command .host ⟨0x04, [.uint8 0xA5]⟩) ref = some (some (.err .accUninit), 0x10) ∧
    stepped (.command .host ⟨0x08, []⟩) ref = some (some (.err .accUninit), 0x10) := by decide +kernel

theorem witness_FaultBitsAreSticky :
    (issueFirst (.command .host ⟨0x40, []⟩) { ref with fault := 0x10 }).inbox.head? ≠ some .reset ∧
    stepped (.command .host ⟨0x40, []⟩) { ref with fault := 0x10 } = some (some (.ok (.status ⟨0x10, 0, false, false⟩)), 0x10) ∧
    (issueFirst (.command .host ⟨0x40, []⟩) { ref with fault := 0x10 }).fault.getLsbD 4 = true ∧
    (issueFirst .reset { ref with fault := 0x1F }).inbox.head? = some .reset ∧
    stepped .reset { ref with fault := 0x1F } = some (none, 0) := by decide +kernel

theorem witness_NonWritingCommandsFrame :
    (∃ t, exec (.crc8 [] 0) ref = .next t) ∧ (∃ t, exec (.crc16 [] 1) ref = .next t) ∧ (∃ t, exec .crc8Read ref = .next t) ∧
    (∃ t, exec .crc16Read ref = .next t) ∧ (∃ t, exec (.build [] 0 2 12) ref = .next t) ∧ (∃ t, exec (.feed []) ref = .next t) ∧
    (∃ t, exec (.decodeCoords []) ref = .next t) ∧ (∃ t, exec (.encodeVuln true true true true true) bare = .next t) ∧
    (∃ t, exec (.decodeVuln 0xFF) ref = .next t) ∧ ∃ t, exec .status ref = .next t :=
  ⟨⟨_, rfl⟩, ⟨_, rfl⟩, ⟨_, rfl⟩, ⟨_, rfl⟩, ⟨_, rfl⟩, ⟨_, rfl⟩, ⟨_, rfl⟩, ⟨_, rfl⟩, ⟨_, rfl⟩, ⟨_, rfl⟩⟩

theorem witness_AccumulatorsWrittenOnlyByTheirCommands :
    (∃ t, exec (.crc8Byte 0xA5) ref = .next t) ∧ (∃ t, exec (.crc16Byte 0xA5) { ref with acc16 := some 0xFFFF } = .next t) ∧
    (∃ t, exec .crc8Init ref = .next t) ∧ (∃ t, exec .crc16Init ref = .next t) ∧
    (∀ b, Instr.status ≠ .crc8Byte b) ∧ Instr.status ≠ .crc8Init ∧ (∀ b, Instr.status ≠ .crc16Byte b) ∧ Instr.status ≠ .crc16Init ∧
    ref.acc8 = none ∧ ref.acc16 = none :=
  ⟨⟨_, rfl⟩, ⟨_, rfl⟩, ⟨_, rfl⟩, ⟨_, rfl⟩, by simp, by simp, by simp, by simp, rfl, rfl⟩

theorem witness_ReceiveCommandsFrame :
    (∃ t, exec (.rxAppend [0xA5]) (bounded 0 []) = .next t) ∧ (∃ t, exec .rxParse (holding f1 ref) = .next t) ∧
    (∃ t, exec .rxClear (holding f1 ref) = .next t) ∧
    (∀ chunk, Instr.status ≠ .rxAppend chunk) ∧ Instr.status ≠ .rxParse ∧ Instr.status ≠ .rxClear :=
  ⟨⟨_, rfl⟩, ⟨_, rfl⟩, ⟨_, rfl⟩, by simp, by simp, by simp⟩

theorem witness_RxbufOnlyAppendedOrTrimmed : ∃ t, step (issueFirst (.command .transport ⟨0x21, [.bytes [0xA5]]⟩) ref) = .next t := ⟨_, rfl⟩

theorem witness_StatelessCommandsReadNoState : ref.cfg = ({ ref with acc8 := some 1, acc16 := some 2, rxbuf := [3], fault := 4 } : State).cfg ∧
    (∃ data n, Instr.crc8 [0xA5] 1 = .crc8 data n ∨ Instr.crc8 [0xA5] 1 = .crc16 data n) := ⟨rfl, _, _, .inl rfl⟩

theorem witness_IdempotentCommands :
    (∃ t, exec .rxClear (holding f1 ref) = .next t ∧ ∀ k, t.response ≠ some (.err k)) ∧
    (∃ t, exec (.crc8 [0xA5] 1) ref = .next t ∧ ∀ k, t.response ≠ some (.err k)) ∧
    ∃ t, exec .crc8Read { ref with acc8 := some 1 } = .next t ∧ ∀ k, t.response ≠ some (.err k) :=
  ⟨⟨_, rfl, by simp⟩, ⟨_, rfl, by simp⟩, _, rfl, by simp⟩

theorem witness_StepKeepsTheConfiguration : ∃ t, step (issueFirst .reset { ref with acc8 := some 1 }) = .next t := ⟨_, rfl⟩

theorem witness_StepKeepsTheStateInvariant : (issueFirst (.command .host ⟨0x21, [.bytes [0xA5]]⟩) (bounded 1 [])).Inv ∧
    ∃ t, step (issueFirst (.command .host ⟨0x21, [.bytes [0xA5]]⟩) (bounded 1 [])) = .next t := ⟨⟨rfl, rfl⟩, _, rfl⟩

end Sys2Proof.Tests
end

section
/-! What a step may do to RXBUF (10_state.md R31), read from what a command and a step can do (`exec_next`, `step_next`). -/

namespace Sys2Proof.Machine

/-- The two writes R31 allows: bytes put at the end, or a front part removed. -/
def AppendedOrTrimmed (before after : List Byte) : Prop :=
  (∃ chunk, after = before ++ chunk) ∨ ∃ k, after = before.drop k

theorem appendedOrTrimmed_refl (buf : List Byte) : AppendedOrTrimmed buf buf := .inr ⟨0, rfl⟩

/-- Clearing a buffer is trimming all of it. -/
theorem appendedOrTrimmed_nil (buf : List Byte) : AppendedOrTrimmed buf [] := .inr ⟨buf.length, List.drop_length.symm⟩

theorem Writes.appendedOrTrimmed {i : Instr} {s t : State} (w : Writes i s t) : AppendedOrTrimmed s.rxbuf t.rxbuf := by
  rcases w.rxbuf with hkept | ⟨chunk, -, happend, -⟩ | ⟨-, k, -, htrim⟩ | ⟨-, hclear⟩
  · rw [hkept]; exact appendedOrTrimmed_refl _
  · exact .inl ⟨chunk, happend⟩
  · exact .inr ⟨k, htrim⟩
  · rw [hclear]; exact appendedOrTrimmed_nil _

theorem exec_appendedOrTrimmed {i : Instr} {s t : State} (h : exec i s = .next t) : AppendedOrTrimmed s.rxbuf t.rxbuf := by
  rcases exec_next h with ⟨k, -, rfl⟩ | ⟨-, -, w⟩
  · exact appendedOrTrimmed_refl _
  · exact w.appendedOrTrimmed

/-- Taking the head event off the inbox leaves RXBUF alone, so a step does to it what its event does. -/
theorem step_appendedOrTrimmed {s t : State} (h : step s = .next t) : AppendedOrTrimmed s.rxbuf t.rxbuf := by
  rcases step_next h with ⟨-, rfl⟩ | ⟨rest, -, rfl⟩ | ⟨a, i, rest, -, hexec⟩ | ⟨a, c, rest, -, rfl⟩
  · exact appendedOrTrimmed_refl _
  · exact appendedOrTrimmed_nil _
  · exact exec_appendedOrTrimmed (s := { s with inbox := rest }) hexec
  · exact appendedOrTrimmed_refl _

/-- Settles O40, by the cases of a step: RX_APPEND appends, RX_PARSE trims, RX_CLEAR and a reset trim all of RXBUF, and every other
step leaves it. -/
theorem rxbufOnlyAppendedOrTrimmed : Obligations.RxbufOnlyAppendedOrTrimmed := fun _ _ h => step_appendedOrTrimmed h

end Sys2Proof.Machine
end

section
/-! The fields a parse result carries (30_encoding.md R81), read from what `parse` can answer (`parse_cases`). -/

namespace Sys2Proof.Machine

/-- The scan finds an offset exactly when the first start byte stands there (R151). -/
theorem findStart_eq_some_iff {buf : List Byte} {st : Nat} :
    findStart buf = some st ↔ buf[st]? = some Config.startByte ∧ ∀ i < st, buf[i]? ≠ some Config.startByte := by
  rw [findStart, List.findIdx?_eq_some_iff_getElem]
  constructor
  · rintro ⟨hlt, hat, hbefore⟩
    refine ⟨by simpa [hlt] using hat, fun i hi => ?_⟩
    simpa [hi.trans hlt] using hbefore i hi
  · rintro ⟨hat, hbefore⟩
    obtain ⟨hlt, hval⟩ := List.getElem?_eq_some_iff.mp hat
    exact ⟨hlt, by simpa using hval, fun i hi => by simpa [hi.trans hlt] using hbefore i hi⟩

/-- Whatever the outcome, `start` is what the scan found. -/
theorem parse_start_eq_findStart {c : Cfg} {buf : List Byte} {r : ParseResult} (hr : parse c buf = .ok r) :
    r.start = findStart buf := by
  rcases parse_cases c buf with ⟨hno, h⟩ | ⟨g, rest, rfl, hg, h⟩
  · cases hr.symm.trans h
    exact (findStart_none hno).symm
  · have hfind : findStart (g ++ Config.startByte :: rest) = some g.length := by simp [findStart_append hg]
    rcases h with ⟨-, h⟩ | ⟨l0, l1, sq, hc, i0, i1, tail, -, h⟩
    · cases hr.symm.trans h; exact hfind.symm
    rcases h with ⟨-, h⟩ | ⟨-, -, h⟩ | ⟨-, p, k0, k1, more, -, -, h⟩
    · cases hr.symm.trans h; exact hfind.symm
    · cases hr.symm.trans h; exact hfind.symm
    · rcases h with ⟨-, h⟩ | ⟨-, -, h⟩ | ⟨-, -, h⟩ <;> cases hr.symm.trans h <;> exact hfind.symm

/-- A guarded read of an absent field faults (R81). -/
@[simp] theorem readField_none {α : Type} : readField (none : Option α) = .error .absentField := rfl

/-- A guarded read of a carried field answers it (R81). -/
@[simp] theorem readField_some {α : Type} (v : α) : readField (some v) = .ok v := rfl

/-- Settles O19: `start` is what the scan found, and the other fields are read off each outcome `parse_cases` lists. An incomplete
result with a length comes only after a header whose CRC passed (R153, R154). -/
theorem parseResultCarriesItsFields : Obligations.ParseResultCarriesItsFields := by
  refine ⟨fun c buf r hr => ⟨fun st hst => ?start, ?fields⟩, fun _ => ⟨readField_none, readField_some⟩⟩
  case start => exact findStart_eq_some_iff.mp ((parse_start_eq_findStart hr).symm.trans hst)
  case fields =>
    rcases parse_cases c buf with ⟨-, noStart⟩ | ⟨g, rest, rfl, -, h⟩
    · cases hr.symm.trans noStart
      simp
    rcases h with ⟨-, incomplete⟩ | ⟨l0, l1, sq, hc, i0, i1, tail, rfl, h⟩
    · cases hr.symm.trans incomplete
      simp
    rcases h with ⟨-, headerMismatch⟩ | ⟨hpass, -, incomplete⟩ | ⟨-, p, k0, k1, more, -, hp, h⟩
    · cases hr.symm.trans headerMismatch
      simp
    · cases hr.symm.trans incomplete
      simp [hpass]
    rcases h with ⟨-, unknown⟩ | ⟨-, -, bodyMismatch⟩ | ⟨-, -, frame⟩
    · cases hr.symm.trans unknown
      simp [hp]
    · cases hr.symm.trans bodyMismatch
      simp
    · cases hr.symm.trans frame
      simp [hp]

end Sys2Proof.Machine
end

section
/-! The checksum engine's commands and functions (41_checksum.md R100 to R112), read from what the CRC functions answer (`crc8_of_le`,
`crc16_of_le`) and from the fault a command meets (`exec_of_fault`). -/

namespace Sys2Proof.Machine

/-! ## One update, read off the tables (R100) -/

/-- Where `tableEntry8` looks: the table at the number of its index. -/
theorem getElem?_crc8Table (c : Cfg) (i : Byte) : c.crc8Table[i.toNat]? = some (tableEntry8 c i) :=
  Vector.getElem?_eq_getElem i.isLt

/-- Where `tableEntry16` looks: the table at the number of its index. -/
theorem getElem?_crc16Table (c : Cfg) (i : Byte) : c.crc16Table[i.toNat]? = some (tableEntry16 c i) :=
  Vector.getElem?_eq_getElem i.isLt

theorem lo_toNat (v : Half) : (lo v).toNat = v.toNat % 256 := by simp [lo]

/-- A byte widened to a uint16 keeps its number. -/
theorem zeroExtend_toNat (b : Byte) : (b.zeroExtend 16 : Half).toNat = b.toNat :=
  BitVec.toNat_setWidth_of_le (by decide)

theorem step16_reflected {c : Cfg} (hform : c.crc16Form = .reflected) (acc : Half) (b : Byte) :
    ∃ v : Half, c.crc16Table[(acc.toNat ^^^ b.toNat) % 256]? = some v ∧ step16 c acc b = (acc >>> 8) ^^^ v := by
  have index : (lo (acc ^^^ b.zeroExtend 16)).toNat = (acc.toNat ^^^ b.toNat) % 256 := by
    rw [lo_toNat, BitVec.toNat_xor, zeroExtend_toNat]
  exact ⟨_, index ▸ getElem?_crc16Table c _, by simp only [step16, hform]⟩

theorem step16_normal {c : Cfg} (hform : c.crc16Form = .normal) (acc : Half) (b : Byte) :
    ∃ v : Half, c.crc16Table[((acc.toNat / 256) ^^^ b.toNat) % 256]? = some v ∧ step16 c acc b = (acc <<< 8) ^^^ v := by
  have index : (lo ((acc >>> 8) ^^^ b.zeroExtend 16)).toNat = ((acc.toNat / 256) ^^^ b.toNat) % 256 := by
    rw [lo_toNat, BitVec.toNat_xor, zeroExtend_toNat, BitVec.toNat_ushiftRight, Nat.shiftRight_eq_div_pow]
  exact ⟨_, index ▸ getElem?_crc16Table c _, by simp only [step16, hform]⟩

/-! ## The commands that meet no fault -/

theorem exec_crc8 {data : List Byte} {n : Nat} (h : n ≤ data.length) (s : State) :
    exec (.crc8 data n) s = .next (respond (.uint8 (crc8Of s.cfg (data.take n))) s) := by
  simp [exec, execCrc8, Nat.not_lt.mpr h, crc8_of_le s.cfg h]

theorem exec_crc16 {data : List Byte} {n : Nat} (h : n ≤ data.length) (s : State) :
    exec (.crc16 data n) s = .next (respond (.uint16 (crc16Of s.cfg (data.take n))) s) := by
  simp [exec, execCrc16, Nat.not_lt.mpr h, crc16_of_le s.cfg h]

theorem exec_crc8Read {s : State} {acc : Byte} (h : s.acc8 = some acc) :
    exec .crc8Read s = .next (respond (.uint8 (acc ^^^ s.cfg.crc8Xorout)) s) := by
  simp [exec, execCrc8Read, h]

theorem exec_crc16Read {s : State} {acc : Half} (h : s.acc16 = some acc) :
    exec .crc16Read s = .next (respond (.uint16 (acc ^^^ s.cfg.crc16Xorout)) s) := by
  simp [exec, execCrc16Read, h]

/-! ## The statements -/

/-- Settles O13: both answers are functions of the configuration and of `data.take n` (`exec_crc8`, `exec_crc16`). -/
theorem crcDependsOnFirstBytesOnly : Obligations.CrcDependsOnFirstBytesOnly := by
  intro data data' n s s' hn hn' hfront hcfg
  refine ⟨_, _, _, _, exec_crc8 hn s, exec_crc8 hn' s', ?answers8, exec_crc16 hn s, exec_crc16 hn' s', ?answers16⟩
  case answers8 => rw [respond_response, respond_response, hfront, hcfg]
  case answers16 => rw [respond_response, respond_response, hfront, hcfg]

/-- Settles O8: an update is the table at its index, in the configured form, and the CRC of the first `n` bytes folds it. -/
theorem crcFunctionsFollowTheTables : Obligations.CrcFunctionsFollowTheTables := fun c =>
  ⟨fun acc b => getElem?_crc8Table c (acc ^^^ b), step16_reflected, step16_normal,
    fun _ _ hn => crc8_of_le c hn, fun _ _ hn => crc16_of_le c hn⟩

/-- Settles O9: up to the length the two commands answer their CRC; beyond it they meet CRC_LENGTH and raise it. -/
theorem wholeBufferCrcCommands : Obligations.WholeBufferCrcCommands := by
  refine fun data n s => ⟨⟨rfl, rfl⟩, fun hn => ⟨exec_crc8 hn s, exec_crc16 hn s⟩, fun hn => ?beyond⟩
  case beyond =>
    have meets8 : faultOf (.crc8 data n) s = some .crcLength := if_pos hn
    have meets16 : faultOf (.crc16 data n) s = some .crcLength := if_pos hn
    exact ⟨exec_of_fault meets8, exec_of_fault meets16⟩

/-- Settles O10: with a value in ACC8 the commands answer it or its update; without one the last two meet ACC_UNINIT and raise it. -/
theorem streamingCrc8Commands : Obligations.StreamingCrc8Commands := by
  refine fun s => ⟨⟨rfl, fun _ => rfl, rfl⟩, rfl, fun _ b hacc => exec_crc8Byte hacc b, fun _ hacc => exec_crc8Read hacc,
    fun b hnone => ?uninit⟩
  case uninit =>
    have meetsByte : faultOf (.crc8Byte b) s = some .accUninit := by simp [faultOf, hnone]
    have meetsRead : faultOf .crc8Read s = some .accUninit := by simp [faultOf, hnone]
    exact ⟨exec_of_fault meetsByte, exec_of_fault meetsRead⟩

/-- Settles O11: with a value in ACC16 the commands answer it or its update; without one the last two meet ACC_UNINIT and raise it. -/
theorem streamingCrc16Commands : Obligations.StreamingCrc16Commands := by
  refine fun s => ⟨⟨rfl, fun _ => rfl, rfl⟩, rfl, fun _ b hacc => exec_crc16Byte hacc b, fun _ hacc => exec_crc16Read hacc,
    fun b hnone => ?uninit⟩
  case uninit =>
    have meetsByte : faultOf (.crc16Byte b) s = some .accUninit := by simp [faultOf, hnone]
    have meetsRead : faultOf .crc16Read s = some .accUninit := by simp [faultOf, hnone]
    exact ⟨exec_of_fault meetsByte, exec_of_fault meetsRead⟩

end Sys2Proof.Machine
end

section
/-! The frame BUILD answers (42_frame_builder.md R130, R131), read from the layout `frameOf` and from what the CRC functions answer. -/

namespace Sys2Proof.Machine

/-- The low length byte, read off the length itself. -/
theorem lo_ofNat (n : Nat) : lo (BitVec.ofNat 16 n) = BitVec.ofNat 8 (n % 256) := by
  rw [lo_eq_ofNat, BitVec.toNat_ofNat, Nat.mod_mod_of_dvd n (by decide)]

/-- The high length byte, read off a length that a uint16 holds. -/
theorem hi_ofNat {n : Nat} (h : n ≤ Config.maxPayload) : hi (BitVec.ofNat 16 n) = BitVec.ofNat 8 (n / 256) := by
  have holds : n < 2 ^ 16 := Nat.lt_succ_of_le h
  rw [hi_eq_ofNat, BitVec.toNat_ofNat, Nat.mod_eq_of_lt holds]

/-- The four bytes the header CRC covers, the length as a number (R79). -/
def checkedHeader (payload : List Byte) (seq : Byte) : List Byte :=
  [0xA5, BitVec.ofNat 8 (payload.length % 256), BitVec.ofNat 8 (payload.length / 256), seq]

/-- The `7 + L` bytes the CRC-16 covers (R131). -/
def checkedBody (c : Cfg) (payload : List Byte) (seq c0 c1 : Byte) : List Byte :=
  checkedHeader payload seq ++ [crc8Of c (checkedHeader payload seq), c1, c0] ++ payload

theorem checkedBody_length (c : Cfg) (payload : List Byte) (seq c0 c1 : Byte) :
    (checkedBody c payload seq c0 c1).length = 7 + payload.length := by
  simp [checkedBody, checkedHeader]; omega

/-- With a length that a uint16 holds, a frame is its checked bytes and their CRC-16, little-endian (R130). -/
theorem frameOf_eq_checkedBody {payload : List Byte} (h : payload.length ≤ Config.maxPayload) (c : Cfg) (seq c0 c1 : Byte) :
    frameOf c payload seq c0 c1 = checkedBody c payload seq c0 c1 ++
      [BitVec.ofNat 8 ((crc16Of c (checkedBody c payload seq c0 c1)).toNat % 256),
       BitVec.ofNat 8 ((crc16Of c (checkedBody c payload seq c0 c1)).toNat / 256)] := by
  rw [← lo_eq_ofNat, ← hi_eq_ofNat, frameOf, lo_ofNat, hi_ofNat h]
  rfl

theorem exec_build {payload : List Byte} (h : payload.length ≤ Config.maxPayload) (seq c0 c1 : Byte) (s : State) :
    exec (.build payload seq c0 c1) s = .next (respond (.bytes (frameOf s.cfg payload seq c0 c1)) s) := by
  simp [exec, execBuild, Nat.not_lt.mpr h, buildFrame_eq]

/-- Settles O16: a payload that fits is answered by its frame, each CRC the one of its span; a longer one meets BUILD_LENGTH. -/
theorem buildAnswersTheFrame : Obligations.BuildAnswersTheFrame := by
  refine fun payload seq c0 c1 s => ⟨rfl, fun hfits => ?frame, fun hlong => ?tooLong⟩
  case frame =>
    exact ⟨frameOf s.cfg payload seq c0 c1, checkedHeader payload seq, _, _, exec_build hfits seq c0 c1 s, rfl,
      crc8_length s.cfg rfl, crc16_length s.cfg (checkedBody_length s.cfg payload seq c0 c1),
      frameOf_eq_checkedBody hfits s.cfg seq c0 c1, frameOf_length s.cfg payload seq c0 c1⟩
  case tooLong =>
    have meets : faultOf (.build payload seq c0 c1) s = some .buildLength := if_pos hlong
    exact exec_of_fault meets

end Sys2Proof.Machine
end

section
/-! The parser's outcome on each shape of buffer, and the four commands of unit 2 (43_frame_parser.md R150 to R174), read from the value
of `parse` behind a start byte (`parse_header`, `parsePresent_whole`) and from what `consume` can answer (`consume_cases`). -/

namespace Sys2Proof.Machine

/-! ## The outcome of each step of R150, for a candidate at the front -/

theorem parse_of_no_start (c : Cfg) {buf : List Byte} (h : ∀ b ∈ buf, b ≠ Config.startByte) :
    parse c buf = .ok { code := .noStartByte } := by
  rw [parse, findStart_none h]

section
variable {c : Cfg} {l0 l1 sq hc : Byte} (i0 i1 : Byte)

/-- Step 3, failing: `L` is not looked at (R153). -/
theorem parse_of_header_crc_ne (h : crc8Of c [Config.startByte, l0, l1, sq] ≠ hc) (tail : List Byte) :
    parse c (Config.startByte :: l0 :: l1 :: sq :: hc :: i0 :: i1 :: tail) =
      .ok { code := .headerCrcMismatch, start := some 0 } := by
  rw [parse_header, if_pos h]

variable (hpass : crc8Of c [Config.startByte, l0, l1, sq] = hc)
include hpass

/-- Step 3, passing: the length is read little-endian and step 4 decides (R153). -/
theorem parse_of_header_crc_eq {L : Nat} (hL : L = l0.toNat + 256 * l1.toNat) (tail : List Byte) :
    parse c (Config.startByte :: l0 :: l1 :: sq :: hc :: i0 :: i1 :: tail) =
      parsePresent c (Config.startByte :: l0 :: l1 :: sq :: hc :: i0 :: i1 :: tail) 0 L := by
  rw [parse_header, if_neg (not_not_intro hpass), le16_toNat, hL]

/-- Step 4: the body is not all there (R154). -/
theorem parse_of_body_absent {tail : List Byte} (h : tail.length < l0.toNat + 256 * l1.toNat + 2) :
    parse c (Config.startByte :: l0 :: l1 :: sq :: hc :: i0 :: i1 :: tail) =
      .ok { code := .incomplete, start := some 0, len := some (l0.toNat + 256 * l1.toNat) } := by
  rw [parse_of_header_crc_eq i0 i1 hpass rfl, parsePresent_short c (by simp only [List.length_cons]; omega)]

variable {p : List Byte} (hp : p.length = l0.toNat + 256 * l1.toNat) (k0 k1 : Byte) (more : List Byte)
include hp

/-- Step 5: an unknown command decides before the CRC-16 is looked at (R155). -/
theorem parse_of_unknown (hunknown : le16 i0 i1 ∉ c.knownCmds) :
    parse c (Config.startByte :: l0 :: l1 :: sq :: hc :: i0 :: i1 :: (p ++ k0 :: k1 :: more)) =
      .ok { code := .unknownCommand, start := some 0, len := some p.length, cmd := some (le16 i0 i1), seq := some sq, payload := some p } := by
  rw [parse_of_header_crc_eq i0 i1 hpass hp, parsePresent_whole c _ _ _ _ _ _ _ _ _ _ _ rfl, if_neg hunknown]

variable {i0 i1} (hknown : le16 i0 i1 ∈ c.knownCmds)
include hknown

/-- Step 6, failing (R156). -/
theorem parse_of_body_crc_ne {k0 k1 : Byte}
    (h : crc16Of c (Config.startByte :: l0 :: l1 :: sq :: hc :: i0 :: i1 :: p) ≠ le16 k0 k1) :
    parse c (Config.startByte :: l0 :: l1 :: sq :: hc :: i0 :: i1 :: (p ++ k0 :: k1 :: more)) =
      .ok { code := .bodyCrcMismatch, start := some 0, len := some p.length } := by
  rw [parse_of_header_crc_eq i0 i1 hpass hp, parsePresent_whole c _ _ _ _ _ _ _ _ _ _ _ rfl, if_pos hknown, if_pos h]

/-- Step 7: a frame (R157). -/
theorem parse_of_body_crc_eq {k0 k1 : Byte}
    (h : crc16Of c (Config.startByte :: l0 :: l1 :: sq :: hc :: i0 :: i1 :: p) = le16 k0 k1) :
    parse c (Config.startByte :: l0 :: l1 :: sq :: hc :: i0 :: i1 :: (p ++ k0 :: k1 :: more)) =
      .ok { code := .frame, start := some 0, len := some p.length, cmd := some (le16 i0 i1), seq := some sq, payload := some p } := by
  rw [parse_of_header_crc_eq i0 i1 hpass hp, parsePresent_whole c _ _ _ _ _ _ _ _ _ _ _ rfl, if_pos hknown,
    if_neg (not_not_intro h)]

end

/-- The outcome of a buffer is its outcome behind garbage, the candidate further on (R178). -/
theorem parse_behind {c : Cfg} {g f : List Byte} {r : ParseResult} (hg : ∀ b ∈ g, b ≠ Config.startByte) (h : parse c f = .ok r) :
    parse c (g ++ f) = .ok (r.shift g.length) := by
  rw [parse_append c hg, h]
  rfl

/-- A header CRC that was computed is the CRC of the four bytes. -/
theorem crc8Of_of_crc8_four {c : Cfg} {a b d e k : Byte} (h : crc8 c [a, b, d, e] 4 = .ok k) : crc8Of c [a, b, d, e] = k :=
  Except.ok.inj ((crc8_four c a b d e).symm.trans h)

/-- A body CRC that was computed over the whole of a sequence is the CRC of it. -/
theorem crc16Of_of_crc16 {c : Cfg} {data : List Byte} {n : Nat} {k : Half} (hlen : data.length = n) (h : crc16 c data n = .ok k) :
    crc16Of c data = k :=
  Except.ok.inj ((crc16_length c hlen).symm.trans h)

/-- Settles O17: the outcome of each step for a candidate at the front, moved behind the garbage (`parse_behind`). -/
theorem parseFollowsTheSevenSteps : Obligations.ParseFollowsTheSevenSteps := by
  intro c
  refine ⟨parse_isOk c, fun buf h => parse_of_no_start c h, fun g hg => ⟨fun rest h => parse_behind hg (parse_short c h), ?header⟩⟩
  intro l0 l1 seq hcrc i0 i1 tail k hk
  obtain rfl := crc8Of_of_crc8_four hk
  refine ⟨fun hne => parse_behind hg (parse_of_header_crc_ne i0 i1 hne tail),
    fun hpass habsent => parse_behind hg (parse_of_body_absent i0 i1 hpass habsent), ?whole⟩
  intro hpass p more r0 r1 cmd rcrc body htail hp hcmd hrcrc hbody
  obtain rfl := eq_le16 hcmd
  obtain rfl := eq_le16 hrcrc
  have hspan : (0xA5 :: l0 :: l1 :: seq :: hcrc :: i0 :: i1 :: p).length = 7 + p.length := by
    simp only [List.length_cons]; omega
  obtain rfl := crc16Of_of_crc16 hspan hbody
  subst htail
  exact ⟨fun hunknown => parse_behind hg (parse_of_unknown i0 i1 hpass hp r0 r1 more hunknown),
    fun hknown hne => parse_behind hg (parse_of_body_crc_ne hpass hp more hknown hne),
    fun hknown heq => parse_behind hg (parse_of_body_crc_eq hpass hp more hknown heq)⟩

/-! ## The commands of unit 2 -/

theorem exec_feed {s : State} {buf : List Byte} {r : ParseResult} (h : parse s.cfg buf = .ok r) :
    exec (.feed buf) s = .next (respond (.parse r) s) := by
  simp [exec, execFeed, h]

/-- Settles O18: every buffer parses, so FEED completes with its parse. -/
theorem feedAnswersTheParse : Obligations.FeedAnswersTheParse := by
  intro buf s
  obtain ⟨r, hr⟩ := parse_isOk s.cfg buf
  exact ⟨rfl, r, hr, exec_feed hr⟩

/-- Settles O21: every buffer parses and its consume number is within it, so RX_PARSE completes and drops that many bytes. -/
theorem rxParseAnswersAndTrims : Obligations.RxParseAnswersAndTrims := by
  intro s
  obtain ⟨r, k, hr, hk, hle, -⟩ := consume_cases s.cfg s.rxbuf
  exact ⟨rfl, r, k, hr, hk, hle, exec_rxParse hr hk hle⟩

theorem exec_rxClear (s : State) : exec .rxClear s = .next (respond .unit { s with rxbuf := [] }) := rfl

/-- Settles O22: a chunk that fits is appended whole; one beyond a capacity in bytes meets RX_OVERFLOW and raises it. -/
theorem receiveBufferAppendAndClear : Obligations.ReceiveBufferAppendAndClear := by
  refine fun chunk s => ⟨⟨rfl, rfl⟩, fun hfits => ?fits, fun cap hcap hover => ?overflows, exec_rxClear s⟩
  case fits =>
    rw [exec_rxAppend ((withinCapacity_iff _ _).mpr hfits), List.length_append]
    rfl
  case overflows =>
    have meets : faultOf (.rxAppend chunk) s = some .rxOverflow := by simp [faultOf, hcap, hover]
    exact exec_of_fault meets

end Sys2Proof.Machine
end

section
/-! The payload decoder's commands (44_payload_decode.md R190 to R196): each entry of a RobotCoordinateSet read off its four bytes, the
vulnerability mask as a number, and the fault the commands meet with the unit absent (`exec_of_fault`). -/

namespace Sys2Proof.Machine

/-! ## One entry of a RobotCoordinateSet (R191, R194) -/

/-- Clamping is the minimum of the numbers (R191). -/
theorem clamp_toNat (v bound : Half) : (clamp v bound).toNat = min v.toNat bound.toNat := by
  unfold clamp
  split <;> omega

/-- The sentinel is the raw pair `(0, 0)`, tested before the clamp (R194). -/
theorem coordEntry_received_eq_false (xr yr : Half) :
    (coordEntry xr yr).received = false ↔ xr.toNat = 0 ∧ yr.toNat = 0 := by
  simp [coordEntry, ← BitVec.toNat_inj]

/-- `e` is the entry the four bytes at offset `4k` stand for (R191). -/
def EntryAt (payload : List Byte) (k : Nat) (e : CoordEntry) : Prop :=
  ∃ b0 b1 b2 b3 : Byte,
    payload[4 * k]? = some b0 ∧ payload[4 * k + 1]? = some b1 ∧
    payload[4 * k + 2]? = some b2 ∧ payload[4 * k + 3]? = some b3 ∧
    e.x.toNat = min (b0.toNat + 256 * b1.toNat) 2800 ∧ e.y.toNat = min (b2.toNat + 256 * b3.toNat) 1500 ∧
    (e.received = false ↔ b0.toNat + 256 * b1.toNat = 0 ∧ b2.toNat + 256 * b3.toNat = 0)

/-- Where its four bytes are present, an entry reads as what they stand for. -/
theorem readEntry_entryAt {payload : List Byte} {k : Nat} (h : 4 * k + 4 ≤ payload.length) :
    ∃ e, readEntry payload k = .ok e ∧ EntryAt payload k e := by
  have present {i : Nat} (hi : i < payload.length) : payload[i]? = some payload[i] := List.getElem?_eq_getElem hi
  refine ⟨_, readEntry_of_le h, _, _, _, _, present (by omega), present (by omega), present (by omega), present (by omega),
    ?x, ?y, ?received⟩
  case x => rw [← le16_toNat]; exact clamp_toNat _ _
  case y => rw [← le16_toNat]; exact clamp_toNat _ _
  case received => rw [← le16_toNat, ← le16_toNat]; exact coordEntry_received_eq_false _ _

/-! ## DECODE_COORDS (R191) -/

/-- The robots of a RobotCoordinateSet in payload order, each with its place in it (R191). -/
def CoordSet.entries (e : CoordSet) : List (Nat × CoordEntry) :=
  [(0, e.r1), (1, e.r2), (2, e.r3), (3, e.r4), (4, e.r5), (5, e.r7)]

theorem decodeCoordinates_of_short {payload : List Byte} (h : payload.length < 24) :
    decodeCoordinates payload = .ok .notDecoded := if_pos h

/-- A long enough payload decodes to its six entries. -/
theorem decodeCoordinates_of_long {payload : List Byte} (h : 24 ≤ payload.length) :
    ∃ e : CoordSet, decodeCoordinates payload = .ok (.coords e) ∧ ∀ p ∈ e.entries, EntryAt payload p.1 p.2 := by
  obtain ⟨e1, h1, at1⟩ := readEntry_entryAt (payload := payload) (k := 0) (by omega)
  obtain ⟨e2, h2, at2⟩ := readEntry_entryAt (payload := payload) (k := 1) (by omega)
  obtain ⟨e3, h3, at3⟩ := readEntry_entryAt (payload := payload) (k := 2) (by omega)
  obtain ⟨e4, h4, at4⟩ := readEntry_entryAt (payload := payload) (k := 3) (by omega)
  obtain ⟨e5, h5, at5⟩ := readEntry_entryAt (payload := payload) (k := 4) (by omega)
  obtain ⟨e7, h7, at7⟩ := readEntry_entryAt (payload := payload) (k := 5) (by omega)
  refine ⟨⟨e1, e2, e3, e4, e5, e7⟩, ?decodes, ?entries⟩
  case decodes =>
    rw [decodeCoordinates, if_neg (Nat.not_lt.mpr h), h1, h2, h3, h4, h5, h7]
    rfl
  case entries =>
    simp only [CoordSet.entries, List.forall_mem_cons]
    exact ⟨at1, at2, at3, at4, at5, at7, List.forall_mem_nil _⟩

/-! ## The commands with the unit present, and the fault they meet with it absent (R190) -/

theorem respondFromDecoder_present {s : State} (h : s.cfg.hasPayloadDecoder = true) (v : Value) :
    respondFromDecoder v s = respond v s := if_pos h

theorem exec_decodeCoords {s : State} (hunit : s.cfg.hasPayloadDecoder = true) {payload : List Byte} {v : Value}
    (hv : decodeCoordinates payload = .ok v) : exec (.decodeCoords payload) s = .next (respond v s) := by
  simp only [exec, execDecodeCoords, hv, complete_ok, respondFromDecoder_present hunit]

theorem exec_encodeVuln {s : State} (hunit : s.cfg.hasPayloadDecoder = true) (r1 r2 r3 r4 r7 : Bool) :
    exec (.encodeVuln r1 r2 r3 r4 r7) s = .next (respond (.uint8 (vulnMask r1 r2 r3 r4 r7)) s) := by
  simp only [exec, execEncodeVuln, respondFromDecoder_present hunit]

theorem exec_decodeVuln {s : State} (hunit : s.cfg.hasPayloadDecoder = true) (v : Byte) :
    exec (.decodeVuln v) s = .next (respond (.flags (vulnFlags v)) s) := by
  simp only [exec, execDecodeVuln, respondFromDecoder_present hunit]

/-- Settles O31: a short payload is NOT_DECODED, a long one its six entries; with the unit absent the command meets ILLEGAL_OP. -/
theorem decodeCoordsAnswersSixEntries : Obligations.DecodeCoordsAnswersSixEntries := by
  refine fun payload s => ⟨rfl, fun habsent => ?absent, fun hunit => ⟨fun hshort => ?short, fun hlong => ?long⟩⟩
  case absent =>
    have meets : faultOf (.decodeCoords payload) s = some .illegalOp := by simp [faultOf, habsent]
    exact exec_of_fault meets
  case short => exact exec_decodeCoords hunit (decodeCoordinates_of_short hshort)
  case long =>
    obtain ⟨e, hdecodes, hentries⟩ := decodeCoordinates_of_long hlong
    exact ⟨e, exec_decodeCoords hunit hdecodes, hentries⟩

/-! ## The vulnerability mask (R195, R196) -/

/-- The mask as a number, by its 32 values: each robot's bit has its own weight, so bits 5 to 7 are zero (R195). -/
theorem vulnMask_toNat : ∀ r1 r2 r3 r4 r7 : Bool,
    (vulnMask r1 r2 r3 r4 r7).toNat = r1.toNat + 2 * r2.toNat + 4 * r3.toNat + 8 * r4.toNat + 16 * r7.toNat := by
  decide

/-- Settles O32: the two commands answer the mask and its flags; with the unit absent both meet ILLEGAL_OP. -/
theorem vulnerabilityMaskCommands : Obligations.VulnerabilityMaskCommands := by
  refine fun s => ⟨fun _ _ _ _ _ => rfl, fun _ => rfl, fun habsent r1 r2 r3 r4 r7 v => ?absent, fun hunit => ⟨?encode, ?decode⟩⟩
  case absent =>
    have meetsEncode : faultOf (.encodeVuln r1 r2 r3 r4 r7) s = some .illegalOp := by simp [faultOf, habsent]
    have meetsDecode : faultOf (.decodeVuln v) s = some .illegalOp := by simp [faultOf, habsent]
    exact ⟨exec_of_fault meetsEncode, exec_of_fault meetsDecode⟩
  case encode =>
    exact fun r1 r2 r3 r4 r7 => ⟨_, exec_encodeVuln hunit r1 r2 r3 r4 r7, vulnMask_toNat r1 r2 r3 r4 r7⟩
  case decode => exact fun v => exec_decodeVuln hunit v

end Sys2Proof.Machine
end

section
/-! Faults and STATUS (60_exceptions.md R212, R214, R215): what a faulting command leaves, which bits of FAULT a step keeps, and that no
command but STATUS depends on FAULT. All of it is read from what a command and a step can do (`exec_next`, `step_next`). -/

namespace Sys2Proof.Machine

/-! ## STATUS and the faulting commands (R212, R215) -/

/-- The report in the words of R215: an accumulator is valid when it is not `none`. -/
theorem statusReport_eq (s : State) :
    statusReport s = { fault := s.fault, rxlen := s.rxbuf.length,
                       acc8Valid := decide (s.acc8 ≠ none), acc16Valid := decide (s.acc16 ≠ none) } := by
  simp only [statusReport, ← Option.isSome_iff_ne_none, Bool.decide_eq_true]

theorem exec_status (s : State) : exec .status s = .next (respond (.status (statusReport s)) s) := rfl

/-- Settles O33: STATUS answers the report and writes nothing (`exec_status`). -/
theorem statusReportsTheState : Obligations.StatusReportsTheState := by
  refine fun s => ⟨rfl, ?_⟩
  rw [← statusReport_eq]
  exact exec_status s

/-- A command that answers `ERR(k)` did nothing but raise `k`: a command that meets no fault answers a value. -/
theorem eq_raise_of_err {i : Instr} {s t : State} {k : FaultCode} (h : exec i s = .next t) (herr : t.response = some (.err k)) :
    t = raise k s := by
  rcases exec_next h with ⟨k', -, rfl⟩ | ⟨-, ⟨v, hvalue⟩, -⟩
  · obtain rfl : k' = k := by simpa using herr
    rfl
  · simp [hvalue] at herr

/-- Settles O34: `raise` writes the code's FAULT bit and the response alone. -/
theorem faultsArePrecise : Obligations.FaultsArePrecise := fun _ _ _ _ h herr => eq_raise_of_err h herr

/-! ## Which bits of FAULT a step keeps (R214) -/

theorem exec_keeps_fault {i : Instr} {s t : State} (h : exec i s = .next t) : s.fault &&& t.fault = s.fault := by
  rcases exec_next h with ⟨k, -, rfl⟩ | ⟨-, -, w⟩
  · exact recordFault_keeps s.fault k
  · rw [w.fault, BitVec.and_self]

theorem step_keeps_fault {s t : State} (hhead : s.inbox.head? ≠ some .reset) (h : step s = .next t) :
    s.fault &&& t.fault = s.fault := by
  rcases step_next h with ⟨-, rfl⟩ | ⟨rest, hin, -⟩ | ⟨a, i, rest, -, hexec⟩ | ⟨a, c, rest, -, rfl⟩
  · exact BitVec.and_self
  · simp [hin] at hhead
  · exact exec_keeps_fault (s := { s with inbox := rest }) hexec
  · exact recordFault_keeps s.fault .illegalOp

theorem step_reset {s : State} {rest : List Event} (h : s.inbox = .reset :: rest) :
    step s = .next (hostReset { s with inbox := rest }) := by
  simp [step, performNext, h]

/-! ## What FAULT changes (R214) -/

/-- `s` with FAULT holding `x`. -/
def State.withFault (s : State) (x : Byte) : State := { s with fault := x }

/-- No fault condition reads FAULT (R211). -/
@[simp] theorem faultOf_withFault (i : Instr) (s : State) (x : Byte) : faultOf i (s.withFault x) = faultOf i s := by
  cases i <;> rfl

/-- Only STATUS reads FAULT: any other command that meets no fault does the same whatever FAULT holds, and leaves FAULT as it was. -/
theorem exec_withFault_of_completes {i : Instr} {s : State} (hi : i ≠ .status) (hf : faultOf i s = none) (x : Byte) :
    ∃ t, exec i s = .next t ∧ exec i (s.withFault x) = .next (t.withFault x) := by
  cases i with
  | crc8 data n =>
    have hn : n ≤ data.length := by simpa [faultOf] using hf
    exact ⟨_, exec_crc8 hn s, exec_crc8 hn (s.withFault x)⟩
  | crc16 data n =>
    have hn : n ≤ data.length := by simpa [faultOf] using hf
    exact ⟨_, exec_crc16 hn s, exec_crc16 hn (s.withFault x)⟩
  | crc8Init => exact ⟨_, rfl, rfl⟩
  | crc8Byte b =>
    obtain ⟨acc, hacc⟩ : ∃ acc, s.acc8 = some acc := by simpa [faultOf, Option.isSome_iff_exists] using hf
    exact ⟨_, exec_crc8Byte hacc b, exec_crc8Byte (s := s.withFault x) hacc b⟩
  | crc8Read =>
    obtain ⟨acc, hacc⟩ : ∃ acc, s.acc8 = some acc := by simpa [faultOf, Option.isSome_iff_exists] using hf
    exact ⟨_, exec_crc8Read hacc, exec_crc8Read (s := s.withFault x) hacc⟩
  | crc16Init => exact ⟨_, rfl, rfl⟩
  | crc16Byte b =>
    obtain ⟨acc, hacc⟩ : ∃ acc, s.acc16 = some acc := by simpa [faultOf, Option.isSome_iff_exists] using hf
    exact ⟨_, exec_crc16Byte hacc b, exec_crc16Byte (s := s.withFault x) hacc b⟩
  | crc16Read =>
    obtain ⟨acc, hacc⟩ : ∃ acc, s.acc16 = some acc := by simpa [faultOf, Option.isSome_iff_exists] using hf
    exact ⟨_, exec_crc16Read hacc, exec_crc16Read (s := s.withFault x) hacc⟩
  | build payload seq c0 c1 =>
    have hlen : payload.length ≤ Config.maxPayload := by simpa [faultOf] using hf
    exact ⟨_, exec_build hlen seq c0 c1 s, exec_build hlen seq c0 c1 (s.withFault x)⟩
  | feed buf =>
    obtain ⟨r, hr⟩ := parse_isOk s.cfg buf
    exact ⟨_, exec_feed hr, exec_feed (s := s.withFault x) hr⟩
  | rxAppend chunk =>
    have hfits : withinCapacity s.cfg.rxbufCap (s.rxbuf.length + chunk.length) = true := by simpa [faultOf] using hf
    exact ⟨_, exec_rxAppend hfits, exec_rxAppend (s := s.withFault x) hfits⟩
  | rxParse =>
    obtain ⟨r, k, hr, hk, hle, -⟩ := consume_cases s.cfg s.rxbuf
    exact ⟨_, exec_rxParse hr hk hle, exec_rxParse (s := s.withFault x) hr hk hle⟩
  | rxClear => exact ⟨_, exec_rxClear s, exec_rxClear (s.withFault x)⟩
  | decodeCoords payload =>
    have hunit : s.cfg.hasPayloadDecoder = true := by simpa [faultOf] using hf
    obtain ⟨v, hv⟩ := decodeCoordinates_isOk payload
    exact ⟨_, exec_decodeCoords hunit hv, exec_decodeCoords (s := s.withFault x) hunit hv⟩
  | encodeVuln r1 r2 r3 r4 r7 =>
    have hunit : s.cfg.hasPayloadDecoder = true := by simpa [faultOf] using hf
    exact ⟨_, exec_encodeVuln hunit r1 r2 r3 r4 r7, exec_encodeVuln (s := s.withFault x) hunit r1 r2 r3 r4 r7⟩
  | decodeVuln v =>
    have hunit : s.cfg.hasPayloadDecoder = true := by simpa [faultOf] using hf
    exact ⟨_, exec_decodeVuln hunit v, exec_decodeVuln (s := s.withFault x) hunit v⟩
  | status => exact absurd rfl hi

/-- Every command but STATUS gives the same next state but for FAULT, whatever FAULT holds. -/
theorem exec_withFault {i : Instr} (hi : i ≠ .status) (s : State) (x : Byte) :
    ∃ t y, exec i s = .next t ∧ exec i (s.withFault x) = .next (t.withFault y) := by
  cases hf : faultOf i s with
  | some k => exact ⟨_, recordFault x k, exec_of_fault hf, exec_of_fault ((faultOf_withFault i s x).trans hf)⟩
  | none =>
    obtain ⟨t, hs, hx⟩ := exec_withFault_of_completes hi hf x
    exact ⟨t, x, hs, hx⟩

/-- Settles O36: a step but a reset keeps FAULT under `&&&`, so each set bit (`step_keeps_fault`); a reset clears it; and a next state
depends on FAULT in FAULT alone (`exec_withFault`), or is STATUS's answer (`exec_status`). -/
theorem faultBitsAreSticky : Obligations.FaultBitsAreSticky := by
  refine ⟨fun s t hhead hstep j hset => ?sticky, fun s t hhead hstep => ?reset, fun i s x => ?normal⟩
  case sticky =>
    rw [← step_keeps_fault hhead hstep, BitVec.getLsbD_and, Bool.and_eq_true] at hset
    exact hset.2
  case reset =>
    obtain ⟨rest, hin⟩ := List.head?_eq_some_iff.mp hhead
    obtain rfl : hostReset { s with inbox := rest } = t := by simpa [step_reset hin] using hstep
    exact hostReset_fault _
  case normal =>
    by_cases hi : i = .status
    · subst hi
      exact ⟨_, _, exec_status s, exec_status (s.withFault x), rfl, rfl, rfl, fun hne => absurd rfl hne⟩
    · obtain ⟨t, y, hs, hx⟩ := exec_withFault hi s x
      exact ⟨t, t.withFault y, hs, hx, rfl, rfl, rfl, fun _ => rfl⟩

end Sys2Proof.Machine
end

section
/-! The decoder inverts the encoder (30_encoding.md R71), and a printed program line assembles back to its command (R85), from the
texts of its operands (`operandTexts_print`, `readOperands_print`). -/

namespace Sys2Proof

/-- The code map is injective: a command is determined by the pair that issues it. -/
theorem encode_injective {i j : Instr} (h : encode i = encode j) : i = j :=
  Except.ok.inj ((decode_encode i).symm.trans ((congrArg decode h).trans (decode_encode j)))

/-- Settles O2: what decodes is an encoding (`decode_cases`), and an encoding decodes to its command (`decode_encode`). -/
theorem decodeInvertsEncode : Obligations.DecodeInvertsEncode := by
  refine fun c i => ⟨fun h => ?decoded, fun h => h ▸ decode_encode i⟩
  case decoded =>
    rcases decode_cases c with ⟨j, hj, rfl⟩ | ⟨hillegal, -⟩ | ⟨hoperands, -⟩
    · rw [Except.ok.inj (h.symm.trans hj)]
    · simp [hillegal] at h
    · simp [hoperands] at h

end Sys2Proof

namespace Sys2Proof.Machine

/-! ## The parts of a printed command -/

/-- What the printer writes after a mnemonic. -/
def printedOperands : List Operand → List Char
  | [] => []
  | o :: ops => ' ' :: joinWith [',', ' '] ((o :: ops).map printOperand)

theorem printInstr_eq (i : Instr) : printInstr i = (mnemonic (opcodeOf i)).toList ++ printedOperands (operandsOf i) := by
  rw [printInstr]
  cases operandsOf i with
  | nil => exact (List.append_nil _).symm
  | cons o ops => rfl

theorem operandTexts_printedOperands (ops : List Operand) : operandTexts (printedOperands ops) = ops.map printOperand := by
  cases ops with
  | nil => rfl
  | cons o ops => exact operandTexts_print o ops

/-- Printed operands stand as operands between their separators. -/
theorem printOperand_words (ops : List Operand) : ∀ w ∈ ops.map printOperand, IsWord w := by
  intro w hw
  obtain ⟨o, -, rfl⟩ := List.mem_map.mp hw
  exact operand_word o

theorem printedOperands_no_semicolon (ops : List Operand) : ∀ c ∈ printedOperands ops, c ≠ ';' := by
  intro c hc
  cases ops with
  | nil => simp [printedOperands] at hc
  | cons o ops =>
    rcases List.mem_cons.mp hc with rfl | hc
    · decide
    rcases joinWith_mem hc with hsep | ⟨w, hw, hc⟩
    · rintro rfl; simp at hsep
    · exact ((printOperand_words (o :: ops) w hw).noComma c hc).2

/-- What stands after a mnemonic is nothing, or ends in no space. -/
theorem printedOperands_last (ops : List Operand) :
    printedOperands ops = [] ∨ ∃ b m, printedOperands ops = m ++ [b] ∧ b ≠ ' ' := by
  cases ops with
  | nil => exact .inl rfl
  | cons o ops =>
    obtain ⟨-, b, m, hjoin, hb⟩ := join_word (printOperand o) (ops.map printOperand) (printOperand_words (o :: ops))
    exact .inr ⟨b, ' ' :: m, congrArg (' ' :: ·) hjoin, hb⟩

/-! ## A printed command as a text -/

theorem printInstr_no_semicolon (i : Instr) : ∀ c ∈ printInstr i, c ≠ ';' := by
  intro c hc
  obtain ⟨-, -, -, hchars⟩ := mnemonic_facts (opcodeOf i)
  rw [printInstr_eq, List.mem_append] at hc
  exact hc.elim (fun hc => (hchars c hc).2) (printedOperands_no_semicolon _ c)

/-- A printed command begins with neither a space nor the transport's mark. -/
theorem printInstr_first (i : Instr) : ∃ a m, printInstr i = a :: m ∧ a ≠ 'T' ∧ a ≠ ' ' := by
  obtain ⟨-, ⟨a, b, r, hname, hT, hspace⟩, -, -⟩ := mnemonic_facts (opcodeOf i)
  exact ⟨a, _, by rw [printInstr_eq, hname]; rfl, hT, hspace⟩

theorem printInstr_last (i : Instr) : ∃ b m, printInstr i = m ++ [b] ∧ b ≠ ' ' := by
  obtain ⟨-, -, ⟨b, r, hname, hb⟩, -⟩ := mnemonic_facts (opcodeOf i)
  rw [printInstr_eq]
  rcases printedOperands_last (operandsOf i) with hnil | ⟨b', m, hops, hb'⟩
  · exact ⟨b, r, by rw [hnil, hname, List.append_nil], hb⟩
  · exact ⟨b', _, by rw [hops, ← List.append_assoc], hb'⟩

/-- A text that ends like a printed command, and begins with no space, is trimmed already. -/
theorem trim_append_printInstr {a : Char} {m pre : List Char} {i : Instr} (h : pre ++ printInstr i = a :: m) (ha : a ≠ ' ') :
    trim (pre ++ printInstr i) = pre ++ printInstr i := by
  obtain ⟨b, m', hlast, hb⟩ := printInstr_last i
  exact trim_of_ends h (b := b) (m' := m'.reverse ++ pre.reverse) (by simp [hlast]) ha hb

@[simp] theorem trim_printInstr (i : Instr) : trim (printInstr i) = printInstr i := by
  obtain ⟨a, m, hfirst, -, ha⟩ := printInstr_first i
  exact trim_append_printInstr (pre := []) hfirst ha

/-- A text without a semicolon holds no comment. -/
theorem takeWhile_no_semicolon {text : List Char} (h : ∀ c ∈ text, c ≠ ';') : text.takeWhile (· != ';') = text :=
  List.takeWhile_eq_self_iff.mpr fun c hc => by simpa using h c hc

/-! ## Assembling what was printed -/

/-- The name, then the operands of its row's types, read back. -/
theorem assembleCommand_print (a : Agent) (i : Instr) :
    assembleCommand a (mnemonic (opcodeOf i)).toList ((operandsOf i).map printOperand) = some [.command a (encode i)] := by
  obtain ⟨hnamed, -⟩ := mnemonic_facts (opcodeOf i)
  simp only [assembleCommand, hnamed, signature_eq, readOperands_print]
  rfl

/-- The first space cuts a printed command after its mnemonic. -/
theorem printInstr_cut (i : Instr) :
    (printInstr i).takeWhile (· != ' ') = (mnemonic (opcodeOf i)).toList ∧
    (printInstr i).dropWhile (· != ' ') = printedOperands (operandsOf i) := by
  obtain ⟨-, -, -, hchars⟩ := mnemonic_facts (opcodeOf i)
  rw [printInstr_eq]
  refine takeWhile_append (fun c hc => by simpa using (hchars c hc).1) ?rest
  case rest =>
    cases operandsOf i with
    | nil => exact .inl rfl
    | cons o ops => exact .inr ⟨_, _, rfl, rfl⟩

theorem assembleFor_print (a : Agent) (i : Instr) : assembleFor a (printInstr i) = some [.command a (encode i)] := by
  obtain ⟨hname, hrest⟩ := printInstr_cut i
  obtain ⟨c, m, hfirst, -⟩ := printInstr_first i
  have nonempty : assembleFor a (printInstr i) =
      assembleCommand a ((printInstr i).takeWhile (· != ' ')) (operandTexts ((printInstr i).dropWhile (· != ' '))) := by
    rw [hfirst]; rfl
  rw [nonempty, hname, hrest, operandTexts_printedOperands, assembleCommand_print]

/-- A host line is its command: no mnemonic can be read as the transport's mark. -/
theorem assembleLine_host (i : Instr) : assembleLine (printLine .host i) = some [.command .host (encode i)] := by
  obtain ⟨a, m, hfirst, hT, -⟩ := printInstr_first i
  rw [assembleLine, printLine, takeWhile_no_semicolon (printInstr_no_semicolon i), trim_printInstr]
  split
  · rename_i hmark
    rw [hfirst] at hmark
    exact absurd (List.cons.inj hmark).1 hT
  · exact assembleFor_print .host i

/-- A transport line is its mark and its command. -/
theorem assembleLine_transport (i : Instr) : assembleLine (printLine .transport i) = some [.command .transport (encode i)] := by
  have no_comment : ∀ c ∈ 'T' :: ':' :: ' ' :: printInstr i, c ≠ ';' := by
    simpa using printInstr_no_semicolon i
  have trimmed : trim ('T' :: ':' :: ' ' :: printInstr i) = 'T' :: ':' :: ' ' :: printInstr i :=
    trim_append_printInstr (pre := ['T', ':', ' ']) rfl (by decide)
  rw [assembleLine, printLine, takeWhile_no_semicolon no_comment, trimmed]
  show assembleFor .transport (trim (' ' :: printInstr i)) = _
  rw [trim_space, trim_printInstr, assembleFor_print]

/-- Settles O3: the line's command is found by its agent's form of a line (`assembleLine_host`, `assembleLine_transport`). -/
theorem programTextAssemblesToItsCommand : Obligations.ProgramTextAssemblesToItsCommand := by
  intro a i
  cases a with
  | host => exact assembleLine_host i
  | transport => exact assembleLine_transport i

end Sys2Proof.Machine
end

section
/-! The round trip of the wire format (43_frame_parser.md R175), read from what BUILD answers (`exec_build`) and from the parse of a
built frame (`parse_frameOf`). -/

namespace Sys2Proof.Machine

/-- The result of parsing a built frame of a known command (R157). -/
theorem frameResult_known {c : Cfg} {c0 c1 : Byte} (h : le16 c1 c0 ∈ c.knownCmds) (payload : List Byte) (seq : Byte) :
    frameResult c payload seq c0 c1 =
      { code := .frame, start := some 0, len := some payload.length, cmd := some (le16 c1 c0), seq := some seq,
        payload := some payload } := by
  rw [frameResult, if_pos h]

/-- The result of parsing a built frame of an unknown command (R155). -/
theorem frameResult_unknown {c : Cfg} {c0 c1 : Byte} (h : le16 c1 c0 ∉ c.knownCmds) (payload : List Byte) (seq : Byte) :
    frameResult c payload seq c0 c1 =
      { code := .unknownCommand, start := some 0, len := some payload.length, cmd := some (le16 c1 c0), seq := some seq,
        payload := some payload } := by
  rw [frameResult, if_neg h]

/-- A command id is `le16` of its two bytes as BUILD takes them, the high byte first. -/
theorem cmd_eq_le16 {cmd : Half} {c0 c1 : Byte} (h : cmd.toNat = 256 * c0.toNat + c1.toNat) : cmd = le16 c1 c0 :=
  eq_le16 (h.trans (Nat.add_comm _ _))

/-- Settles O26: BUILD answers `frameOf`, which parses to `frameResult` whatever follows it. -/
theorem builtFrameParsesBack : Obligations.BuiltFrameParsesBack := by
  intro payload seq c0 c1 cmd s more hfits hcmd
  obtain rfl := cmd_eq_le16 hcmd
  have hparse := parse_frameOf s.cfg hfits seq c0 c1 more
  exact ⟨_, exec_build hfits seq c0 c1 s, fun hknown => frameResult_known hknown payload seq ▸ hparse,
    fun hunknown => frameResult_unknown hunknown payload seq ▸ hparse⟩

end Sys2Proof.Machine
end

section
/-! What every step keeps (10_state.md R28, R30, R32): the configuration, RXBUF within its capacity, and the reserved bits of FAULT.
All of it is read from what a command and a step can do (`exec_next`, `step_next`). -/

namespace Sys2Proof.Machine

/-! ## The configuration -/

theorem exec_keeps_cfg {i : Instr} {s t : State} (h : exec i s = .next t) : t.cfg = s.cfg := by
  rcases exec_next h with ⟨k, -, rfl⟩ | ⟨-, -, w⟩
  · rfl
  · exact w.cfg

/-- Settles O43: neither a command (`exec_keeps_cfg`) nor a reset nor an illegal code writes the configuration. -/
theorem stepKeepsTheConfiguration : Obligations.StepKeepsTheConfiguration := by
  intro s t h
  rcases step_next h with ⟨-, rfl⟩ | ⟨rest, -, rfl⟩ | ⟨a, i, rest, -, hexec⟩ | ⟨a, c, rest, -, rfl⟩
  · rfl
  · rfl
  · exact exec_keeps_cfg (s := { s with inbox := rest }) hexec
  · rfl

/-! ## The invariant of the block's state -/

/-- An empty buffer is within every capacity (R30). -/
@[simp] theorem withinCapacity_zero (c : Capacity) : withinCapacity c 0 = true := by cases c <;> simp

/-- The reset state meets the invariant (R35). -/
theorem resetWith_inv (c : Cfg) : (State.resetWith c).Inv :=
  ⟨withinCapacity_zero c.rxbufCap, BitVec.zero_and⟩

/-- The invariant reads neither the waiting events nor the response. -/
theorem State.Inv.congr {s t : State} (h : s.Inv) (hcfg : t.cfg = s.cfg) (hrxbuf : t.rxbuf = s.rxbuf) (hfault : t.fault = s.fault) :
    t.Inv :=
  ⟨by rw [State.rxbufFits, hcfg, hrxbuf]; exact h.rxbuf, by rw [State.reservedFaultClear, hfault]; exact h.fault⟩

/-- Raising a fault sets no reserved bit and leaves RXBUF alone (R212). -/
theorem State.Inv.raise {s : State} (h : s.Inv) (k : FaultCode) : (raise k s).Inv :=
  ⟨h.rxbuf, (recordFault_reserved s.fault k).trans h.fault⟩

/-- A command that meets no fault appends within the capacity, or shortens RXBUF, or leaves it. -/
theorem Writes.rxbufFits {i : Instr} {s t : State} (w : Writes i s t) (h : s.rxbufFits) : t.rxbufFits := by
  rw [State.rxbufFits, w.cfg]
  rcases w.rxbuf with hkept | ⟨chunk, -, -, hfits⟩ | ⟨-, k, -, htrim⟩ | ⟨-, hclear⟩
  · rw [hkept]; exact h
  · exact hfits
  · exact withinCapacity_mono (by simp [htrim]) h
  · simp [hclear]

theorem exec_keeps_inv {i : Instr} {s t : State} (hs : s.Inv) (h : exec i s = .next t) : t.Inv := by
  rcases exec_next h with ⟨k, -, rfl⟩ | ⟨-, -, w⟩
  · exact hs.raise k
  · exact ⟨w.rxbufFits hs.rxbuf, by rw [State.reservedFaultClear, w.fault]; exact hs.fault⟩

/-- Settles O44: a reset state meets the invariant, and commands (`exec_keeps_inv`) and illegal codes keep it. -/
theorem stepKeepsTheStateInvariant : Obligations.StepKeepsTheStateInvariant := by
  intro s t hs h
  have hs' (rest : List Event) : State.Inv { s with inbox := rest } := hs.congr rfl rfl rfl
  rcases step_next h with ⟨-, rfl⟩ | ⟨rest, -, rfl⟩ | ⟨a, i, rest, -, hexec⟩ | ⟨a, c, rest, -, rfl⟩
  · exact hs
  · exact (resetWith_inv s.cfg).congr rfl rfl rfl
  · exact exec_keeps_inv (hs' rest) hexec
  · exact (hs' rest).raise .illegalOp

/-- Settles O45: every reset state meets the invariant (`resetWith_inv`). -/
theorem resetMeetsTheStateInvariant : Obligations.ResetMeetsTheStateInvariant :=
  ⟨resetWith_inv Config.supplied, resetWith_inv⟩

end Sys2Proof.Machine
end

section
/-! The command codes (30_encoding.md R71, R72, R82) and the step on an issued pair: a command, ILLEGAL_OP, or a pair that cannot be
issued (R60, R62, R73). -/

namespace Sys2Proof

/-! ## The codes and their fields -/

/-- The 17 codes of R71, in the order of the table. -/
def listedCodes : List Byte :=
  [0x01, 0x02, 0x03, 0x04, 0x05, 0x06, 0x07, 0x08, 0x10, 0x20, 0x21, 0x22, 0x23, 0x30, 0x31, 0x32, 0x40]

theorem map_code_all : Opcode.all.map Opcode.code = listedCodes := rfl

/-- A code finds no row exactly when it is not one of the 17 (R71). -/
theorem lookupOpcode_eq_none_iff {op : Byte} : lookupOpcode op = none ↔ op ∉ listedCodes := by
  rw [lookupOpcode_eq_none, ← map_code_all]
  constructor
  · intro h hmem
    obtain ⟨m, -, hm⟩ := List.mem_map.mp hmem
    exact h m hm.symm
  · rintro h m rfl
    exact h (List.mem_map_of_mem (mem_all m))

/-- The codes of unit 3 (R72). -/
theorem isDecoderCode_iff {op : Byte} : isDecoderCode op = true ↔ op ∈ ([0x30, 0x31, 0x32] : List Byte) := by
  constructor
  · intro h
    unfold isDecoderCode at h
    split at h
    · rename_i m hm
      obtain rfl := lookupOpcode_eq_some.mp hm
      revert h
      cases m <;> decide
    · cases h
  · intro h
    simp only [List.mem_cons, List.not_mem_nil, or_false] at h
    rcases h with rfl | rfl | rfl <;> rfl

/-- An unlisted code is illegal whatever stands beside it (R82). -/
theorem decode_of_unlisted {op : Byte} (h : op ∉ listedCodes) (ops : List Operand) : decode ⟨op, ops⟩ = .error .illegalOp := by
  simp [decode, lookupOpcode_eq_none_iff.mpr h]

/-- A code is its unit field above its function field (R71). -/
theorem code_eq_fields (op : Byte) : op.toNat = 16 * (unitField op).toNat + (functionField op).toNat := by
  have hop := op.isLt
  simp [unitField, functionField, Nat.shiftRight_eq_div_pow]
  omega

/-- Every row's code names one of the five units (R72). -/
theorem unitField_code (m : Opcode) : (unitField m.code).toNat < 5 := by cases m <;> decide

/-- A code of a reserved unit is not listed (R72, R82). -/
theorem unlisted_of_reserved {op : Byte} (h : 5 ≤ (unitField op).toNat) : op ∉ listedCodes := by
  rw [← map_code_all]
  intro hmem
  obtain ⟨m, -, rfl⟩ := List.mem_map.mp hmem
  exact absurd (unitField_code m) (Nat.not_lt.mpr h)

theorem unitOf_reserved : ∀ u : BitVec 4, 5 ≤ u.toNat → unitOf u = none := by decide

/-- Settles O1: each listed code is looked up and its operands bound; an unlisted code (`decode_of_unlisted`) is illegal, and a reserved
unit has no listed code. -/
theorem commandCodesDecodeToTheirRows : Obligations.CommandCodesDecodeToTheirRows := by
  exact ⟨fun _ _ => rfl, fun _ _ => rfl, rfl, fun _ => rfl, rfl, rfl, fun _ => rfl, rfl, fun _ _ _ _ => rfl, fun _ => rfl,
    fun _ => rfl, rfl, rfl, fun _ => rfl, fun _ _ _ _ _ => rfl, fun _ => rfl, rfl, fun op ops h => decode_of_unlisted h ops,
    code_eq_fields, rfl, rfl, rfl, rfl, rfl, unitOf_reserved, fun op ops h => decode_of_unlisted (unlisted_of_reserved h) ops⟩

end Sys2Proof

namespace Sys2Proof.Machine

/-! ## The step on the head of the order -/

/-- The pair at the head of the order is performed on the state without it (R60, R63). -/
theorem step_command {s : State} {a : Agent} {c : Command} {rest : List Event} (h : s.inbox = .command a c :: rest) :
    step s = issueCommand c { s with inbox := rest } := by
  simp [step, performNext, h]

theorem issueCommand_of_decode {c : Command} {i : Instr} (h : decode c = .ok i) (s : State) : issueCommand c s = exec i s := by
  simp [issueCommand, h]

/-- Settles O4: the step performs the head (`step_command`), and a pair that decodes is performed as its command. -/
theorem stepRunsDecodedCommand : Obligations.StepRunsDecodedCommand := fun _ _ _ _ _ hin hdecode =>
  (step_command hin).trans (issueCommand_of_decode hdecode _)

/-- Settles O6: a reset event is performed as `hostReset`, and with nothing issued the block waits. -/
theorem resetPutsEveryPieceOfState : Obligations.ResetPutsEveryPieceOfState :=
  ⟨fun _ _ hin => ⟨_, step_reset hin, rfl, rfl, rfl, rfl, rfl, rfl⟩, ⟨rfl, rfl, rfl, rfl, rfl⟩, rfl⟩

/-! ## Illegal codes (R82, R190) -/

/-- A code the block does not perform: an unlisted one, or one of an absent unit 3. -/
def IllegalCode (c : Cfg) (op : Byte) : Prop :=
  op ∉ listedCodes ∨ (op ∈ ([0x30, 0x31, 0x32] : List Byte) ∧ c.hasPayloadDecoder = false)

/-- A command meets ILLEGAL_OP exactly when its code is an illegal one: its code is listed, so it is a command of an absent unit 3. -/
theorem faultOf_eq_illegalOp_iff (i : Instr) (s : State) : faultOf i s = some .illegalOp ↔ IllegalCode s.cfg (encode i).op := by
  have listed : (encode i).op ∈ listedCodes := by
    rw [← map_code_all]
    exact List.mem_map_of_mem (mem_all (opcodeOf i))
  simp only [IllegalCode, listed, not_true_eq_false, false_or]
  cases i <;> simp [faultOf, encode, opcodeOf, Opcode.code]

/-- An illegal code raises ILLEGAL_OP whatever operands stand beside it. -/
theorem issueCommand_of_illegalCode {c : Command} {s : State} (h : IllegalCode s.cfg c.op) :
    issueCommand c s = .next (raise .illegalOp s) := by
  rcases decode_cases c with ⟨i, hdecode, rfl⟩ | ⟨hdecode, -⟩ | ⟨hdecode, m, hlisted, -⟩
  · rw [issueCommand_of_decode hdecode]
    exact exec_of_fault ((faultOf_eq_illegalOp_iff i s).mpr h)
  · simp [issueCommand, hdecode]
  · rcases h with hunlisted | ⟨hdecoder, habsent⟩
    · simp [lookupOpcode_eq_none_iff.mpr hunlisted] at hlisted
    · simp [issueCommand, hdecode, isDecoderCode_iff.mpr hdecoder, habsent]

/-- Settles O5: the step performs the head, whose illegal code raises ILLEGAL_OP (`issueCommand_of_illegalCode`). -/
theorem illegalCodesRaiseIllegalOp : Obligations.IllegalCodesRaiseIllegalOp := fun s _ _ _ rest hin hillegal =>
  (step_command hin).trans (issueCommand_of_illegalCode (s := { s with inbox := rest }) hillegal)

/-! ## A step on events the agents can issue (R62, R73) -/

theorem wf_of_event_wf {a : Agent} {c : Command} (h : Event.wf (.command a c) = true) : c.wf = true := by
  cases a with
  | host => exact h
  | transport => exact (Bool.and_eq_true _ _ ▸ h).1

/-- Of issuable events each one alone, and those behind it, are issuable. -/
theorem State.Issuable.uncons {s : State} {e : Event} {rest : List Event} (h : s.Issuable) (hin : s.inbox = e :: rest) :
    e.wf = true ∧ ∀ e' ∈ rest, e'.wf = true := by
  rw [State.Issuable, hin] at h
  exact List.forall_mem_cons.mp h

/-- Settles O7: each case of a step answers a next state that waits for the rest, but the refusal, whose pair no agent can issue. -/
theorem issuableStepNeverStops : Obligations.IssuableStepNeverStops := by
  intro s hs
  rcases step_cases s with ⟨-, h⟩ | ⟨rest, hin, h⟩ | ⟨a, i, rest, hin, h⟩ | ⟨a, c, rest, hin, h, -⟩ | ⟨a, c, rest, hin, -, hnot⟩
  · exact ⟨s, h, hs⟩
  · exact ⟨_, h, (hs.uncons hin).2⟩
  · obtain ⟨t, hexec, -, hinbox⟩ := exec_total i { s with inbox := rest }
    refine ⟨t, h.trans hexec, ?_⟩
    rw [State.Issuable, hinbox]
    exact (hs.uncons hin).2
  · exact ⟨_, h, (hs.uncons hin).2⟩
  · simp [wf_of_event_wf (hs.uncons hin).1] at hnot

end Sys2Proof.Machine
end

section
/-! The fault table (60_exceptions.md R211) read backwards: which issued pairs meet each fault. The condition of each fault is read off
`faultOf`, and a step answers exactly the fault its command meets. -/

namespace Sys2Proof.Machine

/-! ## The commands that meet each fault -/

theorem faultOf_eq_crcLength_iff (i : Instr) (s : State) :
    faultOf i s = some .crcLength ↔ ∃ data n, (i = .crc8 data n ∨ i = .crc16 data n) ∧ data.length < n := by
  cases i <;> simp [faultOf]

theorem faultOf_eq_buildLength_iff (i : Instr) (s : State) :
    faultOf i s = some .buildLength ↔ ∃ p q c0 c1, i = .build p q c0 c1 ∧ Config.maxPayload < p.length := by
  cases i <;> simp [faultOf]

theorem faultOf_eq_rxOverflow_iff (i : Instr) (s : State) :
    faultOf i s = some .rxOverflow ↔
      ∃ chunk cap, i = .rxAppend chunk ∧ s.cfg.rxbufCap = .bytes cap ∧ cap < s.rxbuf.length + chunk.length := by
  cases i
  case rxAppend chunk => cases hcap : s.cfg.rxbufCap <;> simp [faultOf, hcap]
  all_goals simp [faultOf]

theorem faultOf_eq_accUninit_iff (i : Instr) (s : State) :
    faultOf i s = some .accUninit ↔
      (s.acc8 = none ∧ ((∃ b, i = .crc8Byte b) ∨ i = .crc8Read)) ∨ (s.acc16 = none ∧ ((∃ b, i = .crc16Byte b) ∨ i = .crc16Read)) := by
  cases i <;> simp [faultOf]

/-! ## What a step answers -/

/-- A command answers `ERR(k)` exactly when it meets the fault `k`. -/
theorem err_iff_faultOf {i : Instr} {s t : State} (h : exec i s = .next t) (k : FaultCode) :
    t.response = some (.err k) ↔ faultOf i s = some k := by
  rcases exec_next h with ⟨k', hk', rfl⟩ | ⟨hnone, ⟨v, hv⟩, -⟩
  · simp [hk']
  · simp [hnone, hv]

/-- A pair that is performed is a command's encoding, or an illegal code that is no command and raises ILLEGAL_OP. -/
theorem step_command_next {s t : State} {a : Agent} {c : Command} {rest : List Event} (hin : s.inbox = .command a c :: rest)
    (h : step s = .next t) :
    (∃ i, c = encode i ∧ exec i { s with inbox := rest } = .next t) ∨
    ((∀ i, c ≠ encode i) ∧ IllegalCode s.cfg c.op ∧ t = raise .illegalOp { s with inbox := rest }) := by
  rw [step_command hin] at h
  rcases decode_cases c with ⟨i, hdecode, hi⟩ | ⟨hdecode, hunlisted⟩ | ⟨hdecode, -⟩
  · exact .inl ⟨i, hi, (issueCommand_of_decode hdecode _).symm.trans h⟩
  all_goals
    have no_command : ∀ i, c ≠ encode i := by
      rintro i rfl
      simp at hdecode
    refine .inr ⟨no_command, ?_⟩
  · have illegal : IllegalCode s.cfg c.op := .inl (lookupOpcode_eq_none_iff.mp hunlisted)
    rw [issueCommand_of_illegalCode (s := { s with inbox := rest }) illegal] at h
    cases h
    exact ⟨illegal, rfl⟩
  · by_cases habsent : (isDecoderCode c.op && !s.cfg.hasPayloadDecoder) = true
    · have illegal : IllegalCode s.cfg c.op := by
        simp only [Bool.and_eq_true, Bool.not_eq_true', isDecoderCode_iff] at habsent
        exact .inr habsent
      rw [issueCommand_of_illegalCode (s := { s with inbox := rest }) illegal] at h
      cases h
      exact ⟨illegal, rfl⟩
    · simp [issueCommand, hdecode, habsent] at h

/-- A recorded fault is the bit of the code answered (R212). -/
theorem step_command_fault {s t : State} {a : Agent} {c : Command} {rest : List Event} (hin : s.inbox = .command a c :: rest)
    (h : step s = .next t) {k : FaultCode} (herr : t.response = some (.err k)) : t.fault = recordFault s.fault k := by
  rcases step_command_next hin h with ⟨i, -, hexec⟩ | ⟨-, -, rfl⟩
  · rw [eq_raise_of_err hexec herr]; rfl
  · cases herr; rfl

/-- Settles O35: a performed command answers the fault it meets (`err_iff_faultOf`), whose condition `faultOf` gives; a performed pair
that is no command has an illegal code, and is no pair of the other rows. -/
theorem faultsRaisedExactlyByTheTable : Obligations.FaultsRaisedExactlyByTheTable := by
  refine ⟨⟨rfl, rfl, rfl, rfl, rfl⟩, fun s t a c rest hin hstep => ?rows⟩
  case rows =>
    rcases step_command_next hin hstep with ⟨i, rfl, hexec⟩ | ⟨no_command, hillegal, ht⟩
    · have encode_eq (j : Instr) : encode i = encode j ↔ i = j := ⟨encode_injective, congrArg encode⟩
      have answers := err_iff_faultOf hexec
      refine ⟨?illegal, ?crcLength, ?buildLength, ?rxOverflow, ?accUninit, fun k herr => step_command_fault hin hstep herr⟩
      case illegal => exact (answers _).trans (faultOf_eq_illegalOp_iff i _)
      case crcLength => exact (answers _).trans ((faultOf_eq_crcLength_iff i _).trans (by simp only [← encode_eq]; rfl))
      case buildLength => exact (answers _).trans ((faultOf_eq_buildLength_iff i _).trans (by simp only [← encode_eq]; rfl))
      case rxOverflow => exact (answers _).trans ((faultOf_eq_rxOverflow_iff i _).trans (by simp only [← encode_eq]; rfl))
      case accUninit => exact (answers _).trans ((faultOf_eq_accUninit_iff i _).trans (by simp only [← encode_eq]; rfl))
    · have answered : t.response = some (.err .illegalOp) := by rw [ht]; rfl
      have other {k : FaultCode} (hk : k ≠ .illegalOp) : t.response ≠ some (.err k) := by simp [answered, hk.symm]
      refine ⟨iff_of_true answered hillegal, iff_of_false (other (by decide)) ?crcLength, iff_of_false (other (by decide)) ?buildLength,
        iff_of_false (other (by decide)) ?rxOverflow, iff_of_false (other (by decide)) ?accUninit,
        fun k herr => step_command_fault hin hstep herr⟩
      case crcLength =>
        rintro ⟨data, n, h | h, -⟩
        · exact no_command (.crc8 data n) h
        · exact no_command (.crc16 data n) h
      case buildLength =>
        rintro ⟨p, q, c0, c1, h, -⟩
        exact no_command (.build p q c0 c1) h
      case rxOverflow =>
        rintro ⟨chunk, cap, h, -⟩
        exact no_command (.rxAppend chunk) h
      case accUninit =>
        rintro (⟨-, ⟨b, h⟩ | h⟩ | ⟨-, ⟨b, h⟩ | h⟩)
        · exact no_command (.crc8Byte b) h
        · exact no_command .crc8Read h
        · exact no_command (.crc16Byte b) h
        · exact no_command .crc16Read h

end Sys2Proof.Machine
end

section
/-! What the commands write and read (10_state.md R20 to R31): the frame of each kind of command, read from what a command may write
(`Writes`), and the commands whose answer depends on the configuration alone. -/

namespace Sys2Proof.Machine

/-! ## What a command leaves alone (R23, R24, R30) -/

theorem exec_keeps_acc8 {i : Instr} {s t : State} (h : exec i s = .next t) (hbyte : ∀ b, i ≠ .crc8Byte b) (hinit : i ≠ .crc8Init) :
    t.acc8 = s.acc8 := by
  rcases exec_next h with ⟨k, -, rfl⟩ | ⟨-, -, w⟩
  · rfl
  · rcases w.acc8 with hkept | rfl | ⟨b, rfl⟩
    · exact hkept
    · exact absurd rfl hinit
    · exact absurd rfl (hbyte b)

theorem exec_keeps_acc16 {i : Instr} {s t : State} (h : exec i s = .next t) (hbyte : ∀ b, i ≠ .crc16Byte b) (hinit : i ≠ .crc16Init) :
    t.acc16 = s.acc16 := by
  rcases exec_next h with ⟨k, -, rfl⟩ | ⟨-, -, w⟩
  · rfl
  · rcases w.acc16 with hkept | rfl | ⟨b, rfl⟩
    · exact hkept
    · exact absurd rfl hinit
    · exact absurd rfl (hbyte b)

/-- Without a value a streaming command meets ACC_UNINIT, so only INIT gives ACC8 its first (R23). -/
theorem exec_keeps_acc8_none {i : Instr} {s t : State} (h : exec i s = .next t) (hnone : s.acc8 = none) (hinit : i ≠ .crc8Init) :
    t.acc8 = none := by
  by_cases hbyte : ∃ b, i = .crc8Byte b
  · obtain ⟨b, rfl⟩ := hbyte
    rw [exec_of_fault (i := .crc8Byte b) (k := .accUninit) (by simp [faultOf, hnone])] at h
    cases h
    exact hnone
  · exact (exec_keeps_acc8 h (not_exists.mp hbyte) hinit).trans hnone

/-- The same of ACC16 (R24). -/
theorem exec_keeps_acc16_none {i : Instr} {s t : State} (h : exec i s = .next t) (hnone : s.acc16 = none) (hinit : i ≠ .crc16Init) :
    t.acc16 = none := by
  by_cases hbyte : ∃ b, i = .crc16Byte b
  · obtain ⟨b, rfl⟩ := hbyte
    rw [exec_of_fault (i := .crc16Byte b) (k := .accUninit) (by simp [faultOf, hnone])] at h
    cases h
    exact hnone
  · exact (exec_keeps_acc16 h (not_exists.mp hbyte) hinit).trans hnone

/-- RXBUF is written by the three receive commands alone (R30). -/
theorem exec_keeps_rxbuf {i : Instr} {s t : State} (h : exec i s = .next t) (happend : ∀ chunk, i ≠ .rxAppend chunk)
    (hparse : i ≠ .rxParse) (hclear : i ≠ .rxClear) : t.rxbuf = s.rxbuf := by
  rcases exec_next h with ⟨k, -, rfl⟩ | ⟨-, -, w⟩
  · rfl
  · rcases w.rxbuf with hkept | ⟨chunk, rfl, -⟩ | ⟨rfl, -⟩ | ⟨rfl, -⟩
    · exact hkept
    · exact absurd rfl (happend chunk)
    · exact absurd rfl hparse
    · exact absurd rfl hclear

theorem exec_keeps_inbox {i : Instr} {s t : State} (h : exec i s = .next t) : t.inbox = s.inbox := by
  rcases exec_next h with ⟨k, -, rfl⟩ | ⟨-, -, w⟩
  · rfl
  · exact w.inbox

/-- FAULT changes only by the bit of the fault met, and then nothing else does but the response. -/
theorem exec_fault_or_raise {i : Instr} {s t : State} (h : exec i s = .next t) :
    t.fault = s.fault ∨ ∃ k, faultOf i s = some k ∧ t = raise k s := by
  rcases exec_next h with hraise | ⟨-, -, w⟩
  · exact .inr hraise
  · exact .inl w.fault

/-- Settles O38: each accumulator's own commands are ruled out in turn, and an INIT or BYTE command can meet ACC_UNINIT alone. -/
theorem accumulatorsWrittenOnlyByTheirCommands : Obligations.AccumulatorsWrittenOnlyByTheirCommands := by
  refine fun i s t h => ⟨exec_keeps_acc8 h, exec_keeps_acc16 h, exec_keeps_acc8_none h, exec_keeps_acc16_none h, fun hi => ?writers⟩
  case writers =>
    have hrxbuf : t.rxbuf = s.rxbuf := by
      apply exec_keeps_rxbuf h <;> rcases hi with ⟨b, rfl | rfl⟩ | rfl | rfl <;> simp
    refine ⟨hrxbuf, exec_keeps_cfg h, exec_keeps_inbox h, (exec_fault_or_raise h).imp_right ?uninit⟩
    rintro ⟨k, hk, rfl⟩
    have uninit : k = .accUninit := by
      rcases hi with ⟨b, rfl | rfl⟩ | rfl | rfl <;> simp [faultOf] at hk <;> exact hk.2.symm
    subst uninit
    exact ⟨rfl, rfl, rfl, rfl⟩

/-- Settles O39: only the three receive commands write RXBUF (`exec_keeps_rxbuf`); they write no accumulator, and can meet RX_OVERFLOW
alone. -/
theorem receiveCommandsFrame : Obligations.ReceiveCommandsFrame := by
  refine fun i s t h => ⟨exec_keeps_rxbuf h, fun hi => ?receive⟩
  case receive =>
    have hacc8 : t.acc8 = s.acc8 := by
      apply exec_keeps_acc8 h <;> rcases hi with ⟨chunk, rfl⟩ | rfl | rfl <;> simp
    have hacc16 : t.acc16 = s.acc16 := by
      apply exec_keeps_acc16 h <;> rcases hi with ⟨chunk, rfl⟩ | rfl | rfl <;> simp
    refine ⟨hacc8, hacc16, exec_keeps_cfg h, exec_keeps_inbox h, (exec_fault_or_raise h).imp_right ?overflow⟩
    rintro ⟨k, hk, rfl⟩
    have overflow : k = .rxOverflow := by
      rcases hi with ⟨chunk, rfl⟩ | rfl | rfl <;> simp [faultOf] at hk
      exact hk.2.symm
    subst overflow
    exact ⟨rfl, rfl, rfl⟩

/-! ## Commands that answer and write nothing else (R20, R21) -/

/-- The block answering `r`: a value is answered, a fault raised. -/
def answerWith (r : Response) (s : State) : State :=
  match r with
  | .ok v => respond v s
  | .err k => raise k s

@[simp] theorem answerWith_cfg (r : Response) (s : State) : (answerWith r s).cfg = s.cfg := by cases r <;> rfl
@[simp] theorem answerWith_acc8 (r : Response) (s : State) : (answerWith r s).acc8 = s.acc8 := by cases r <;> rfl
@[simp] theorem answerWith_acc16 (r : Response) (s : State) : (answerWith r s).acc16 = s.acc16 := by cases r <;> rfl
@[simp] theorem answerWith_rxbuf (r : Response) (s : State) : (answerWith r s).rxbuf = s.rxbuf := by cases r <;> rfl
@[simp] theorem answerWith_inbox (r : Response) (s : State) : (answerWith r s).inbox = s.inbox := by cases r <;> rfl
@[simp] theorem answerWith_response (r : Response) (s : State) : (answerWith r s).response = some r := by cases r <;> rfl

/-- The commands R20 and R21 call pure, and those of the decoder. -/
def Stateless (i : Instr) : Prop :=
  (∃ data n, i = .crc8 data n ∨ i = .crc16 data n) ∨ (∃ p q c0 c1, i = .build p q c0 c1) ∨ (∃ buf, i = .feed buf) ∨
    (∃ p, i = .decodeCoords p) ∨ (∃ r1 r2 r3 r4 r7, i = .encodeVuln r1 r2 r3 r4 r7) ∨ (∃ v, i = .decodeVuln v)

/-- The answer of `i` under the configuration `c` is the same from every state, and nothing else is written. -/
def AnswersBy (c : Cfg) (i : Instr) : Prop := ∃ r, ∀ s : State, s.cfg = c → exec i s = .next (answerWith r s)

theorem answersBy_of_fault {c : Cfg} {i : Instr} {k : FaultCode} (h : ∀ s : State, s.cfg = c → faultOf i s = some k) : AnswersBy c i :=
  ⟨.err k, fun s hs => exec_of_fault (h s hs)⟩

/-- Each of these commands computes its answer, or its fault, from its operands and the configuration. -/
theorem answersBy_of_stateless {i : Instr} (h : Stateless i) (c : Cfg) : AnswersBy c i := by
  rcases h with ⟨data, n, rfl | rfl⟩ | ⟨p, q, c0, c1, rfl⟩ | ⟨buf, rfl⟩ | ⟨p, rfl⟩ | ⟨r1, r2, r3, r4, r7, rfl⟩ | ⟨v, rfl⟩
  · by_cases hn : n ≤ data.length
    · exact ⟨.ok (.uint8 (crc8Of c (data.take n))), by rintro s rfl; exact exec_crc8 hn s⟩
    · exact answersBy_of_fault fun s _ => if_pos (Nat.lt_of_not_le hn)
  · by_cases hn : n ≤ data.length
    · exact ⟨.ok (.uint16 (crc16Of c (data.take n))), by rintro s rfl; exact exec_crc16 hn s⟩
    · exact answersBy_of_fault fun s _ => if_pos (Nat.lt_of_not_le hn)
  · by_cases hfits : p.length ≤ Config.maxPayload
    · exact ⟨.ok (.bytes (frameOf c p q c0 c1)), by rintro s rfl; exact exec_build hfits q c0 c1 s⟩
    · exact answersBy_of_fault fun s _ => if_pos (Nat.lt_of_not_le hfits)
  · obtain ⟨r, hr⟩ := parse_isOk c buf
    exact ⟨.ok (.parse r), by rintro s rfl; exact exec_feed hr⟩
  all_goals by_cases hunit : c.hasPayloadDecoder = true
  · obtain ⟨v, hv⟩ := decodeCoordinates_isOk p
    exact ⟨.ok v, by rintro s rfl; exact exec_decodeCoords hunit hv⟩
  · exact answersBy_of_fault (k := .illegalOp) (by rintro s rfl; simp [faultOf, hunit])
  · exact ⟨.ok (.uint8 (vulnMask r1 r2 r3 r4 r7)), by rintro s rfl; exact exec_encodeVuln hunit r1 r2 r3 r4 r7⟩
  · exact answersBy_of_fault (k := .illegalOp) (by rintro s rfl; simp [faultOf, hunit])
  · exact ⟨.ok (.flags (vulnFlags v)), by rintro s rfl; exact exec_decodeVuln hunit v⟩
  · exact answersBy_of_fault (k := .illegalOp) (by rintro s rfl; simp [faultOf, hunit])

/-- Settles O41: both states get the one answer of their configuration (`answersBy_of_stateless`), which writes FAULT only as a fault. -/
theorem statelessCommandsReadNoState : Obligations.StatelessCommandsReadNoState := by
  intro i s s' hcfg hi
  obtain ⟨r, hr⟩ := answersBy_of_stateless hi s'.cfg
  refine ⟨_, _, hr s hcfg, hr s' rfl, by simp, by simp, by simp, by simp, fun hok => ?fault⟩
  case fault =>
    cases r with
    | ok v => rfl
    | err k => exact absurd rfl (hok k)

/-- A READ answers the accumulator, or ACC_UNINIT, and STATUS its report: they too write nothing else. -/
theorem exec_reading {i : Instr} (h : i = .crc8Read ∨ i = .crc16Read ∨ i = .status) (s : State) :
    ∃ r, exec i s = .next (answerWith r s) := by
  rcases h with rfl | rfl | rfl
  · cases hacc : s.acc8 with
    | none => exact ⟨.err .accUninit, exec_of_fault (by simp [faultOf, hacc])⟩
    | some acc => exact ⟨.ok _, exec_crc8Read hacc⟩
  · cases hacc : s.acc16 with
    | none => exact ⟨.err .accUninit, exec_of_fault (by simp [faultOf, hacc])⟩
    | some acc => exact ⟨.ok _, exec_crc16Read hacc⟩
  · exact ⟨.ok _, exec_status s⟩

/-- Settles O37: each of these commands only answers (`answersBy_of_stateless`, `exec_reading`), and an answer writes FAULT alone. -/
theorem nonWritingCommandsFrame : Obligations.NonWritingCommandsFrame := by
  intro i s t hi h
  obtain ⟨r, hr⟩ : ∃ r, exec i s = .next (answerWith r s) := by
    have kinds : Stateless i ∨ (i = .crc8Read ∨ i = .crc16Read ∨ i = .status) := by
      unfold Stateless
      itauto
    rcases kinds with hstateless | hreading
    · exact (answersBy_of_stateless hstateless s.cfg).imp fun r hr => hr s rfl
    · exact exec_reading hreading s
  rw [hr] at h
  cases h
  refine ⟨by simp, by simp, by simp, by simp, by simp, ?fault⟩
  case fault =>
    cases r with
    | ok v => exact .inl rfl
    | err k => exact .inr ⟨k, rfl, rfl⟩

/-! ## Idempotence (20_memory.md section 3) -/

/-- Settles O42: what a command read to answer its value it finds again in the state it leaves. -/
theorem idempotentCommands : Obligations.IdempotentCommands := by
  intro i s t hi h hok
  have kinds : Stateless i ∨ i = .crc8Init ∨ i = .crc16Init ∨ i = .crc8Read ∨ i = .crc16Read ∨ i = .rxClear ∨ i = .status := by
    unfold Stateless
    itauto
  rcases kinds with hstateless | rfl | rfl | rfl | rfl | rfl | rfl
  · obtain ⟨r, hr⟩ := answersBy_of_stateless hstateless s.cfg
    cases (hr s rfl).symm.trans h
    cases r with
    | ok v => exact hr (respond v s) rfl
    | err k => exact absurd rfl (hok k)
  · cases h; rfl
  · cases h; rfl
  · cases hacc : s.acc8 with
    | none =>
      cases (exec_of_fault (i := .crc8Read) (k := .accUninit) (by simp [faultOf, hacc])).symm.trans h
      exact absurd rfl (hok .accUninit)
    | some acc =>
      cases (exec_crc8Read hacc).symm.trans h
      exact exec_crc8Read (s := respond _ s) hacc
  · cases hacc : s.acc16 with
    | none =>
      cases (exec_of_fault (i := .crc16Read) (k := .accUninit) (by simp [faultOf, hacc])).symm.trans h
      exact absurd rfl (hok .accUninit)
    | some acc =>
      cases (exec_crc16Read hacc).symm.trans h
      exact exec_crc16Read (s := respond _ s) hacc
  · cases h; rfl
  · cases h; rfl

end Sys2Proof.Machine
end

section
/-! Runs of several commands (`execAll`, `responsesOf`), and two facts about them: streaming a CRC is computing it over the whole buffer
(41_checksum.md R111), and two appends are one (R64). -/

namespace Sys2Proof.Machine

/-! ## Runs -/

theorem execAll_cons {i : Instr} {s t : State} (h : exec i s = .next t) (is : List Instr) : execAll (i :: is) s = execAll is t := by
  simp [execAll, h]

theorem execAll_append {is : List Instr} {s t : State} (h : execAll is s = .next t) (js : List Instr) :
    execAll (is ++ js) s = execAll js t := by
  induction is generalizing s with
  | nil => cases h; rfl
  | cons i is ih =>
    obtain ⟨u, hu, -⟩ := exec_total i s
    rw [execAll_cons hu] at h
    rw [List.cons_append, execAll_cons hu, ih h]

theorem responsesOf_cons {i : Instr} {s t : State} {r : Response} (h : exec i s = .next t) (hr : t.response = some r)
    (is : List Instr) : responsesOf (i :: is) s = r :: responsesOf is t := by
  simp [responsesOf, h, hr]

/-- Every command answers, so a run answers once per command. -/
theorem responsesOf_length (is : List Instr) (s : State) : (responsesOf is s).length = is.length := by
  induction is generalizing s with
  | nil => rfl
  | cons i is ih =>
    obtain ⟨t, r, hexec, hr⟩ : ∃ t r, exec i s = .next t ∧ t.response = some r := by
      rcases exec_cases i s with ⟨k, -, h⟩ | ⟨-, v, t, h, hv, -⟩
      · exact ⟨_, _, h, raise_response k s⟩
      · exact ⟨t, _, h, hv⟩
    rw [responsesOf_cons hexec hr, List.length_cons, ih, List.length_cons]

/-- Induction over a run: a fact about the commands still to run and the state, kept by each of them, holds at the end. -/
theorem execAll_induction (P : List Instr → State → Prop)
    (kept : ∀ i is s t, P (i :: is) s → exec i s = .next t → P is t) {is : List Instr} {s : State} (h : P is s) :
    ∃ t, execAll is s = .next t ∧ P [] t := by
  induction is generalizing s with
  | nil => exact ⟨s, rfl, h⟩
  | cons i is ih =>
    obtain ⟨t, hexec, -⟩ := exec_total i s
    rw [execAll_cons hexec]
    exact ih (kept i is s t h hexec)

/-! ## Streaming a CRC -/

theorem streamed8_other {i : Instr} (h : ∀ b, i ≠ .crc8Byte b) (is : List Instr) : streamed8 (i :: is) = streamed8 is := by
  cases i with
  | crc8Byte b => exact absurd rfl (h b)
  | _ => rfl

theorem streamed16_other {i : Instr} (h : ∀ b, i ≠ .crc16Byte b) (is : List Instr) : streamed16 (i :: is) = streamed16 is := by
  cases i with
  | crc16Byte b => exact absurd rfl (h b)
  | _ => rfl

/-- ACC8 is on the way to `final`: the bytes still to be streamed take it there, and no INIT stands between. -/
def Streaming8 (c : Cfg) (final : Byte) (is : List Instr) (s : State) : Prop :=
  .crc8Init ∉ is ∧ s.cfg = c ∧ ∃ acc, s.acc8 = some acc ∧ (streamed8 is).foldl (step8 c) acc = final

/-- ACC16 is on the way to `final`. -/
def Streaming16 (c : Cfg) (final : Half) (is : List Instr) (s : State) : Prop :=
  .crc16Init ∉ is ∧ s.cfg = c ∧ ∃ acc, s.acc16 = some acc ∧ (streamed16 is).foldl (step16 c) acc = final

/-- A BYTE command takes ACC8 one byte further (R104), and no other command but INIT writes it. -/
theorem Streaming8.kept {c : Cfg} {final : Byte} (i : Instr) (is : List Instr) (s t : State) (hs : Streaming8 c final (i :: is) s)
    (h : exec i s = .next t) : Streaming8 c final is t := by
  obtain ⟨hinit, rfl, acc, hacc, hfinal⟩ := hs
  obtain ⟨hi, his⟩ := not_or.mp (mt List.mem_cons.mpr hinit)
  refine ⟨his, exec_keeps_cfg h, ?acc⟩
  by_cases hbyte : ∃ b, i = .crc8Byte b
  · obtain ⟨b, rfl⟩ := hbyte
    cases (exec_crc8Byte hacc b).symm.trans h
    exact ⟨_, rfl, hfinal⟩
  · rw [streamed8_other (not_exists.mp hbyte)] at hfinal
    exact ⟨acc, (exec_keeps_acc8 h (not_exists.mp hbyte) (Ne.symm hi)).trans hacc, hfinal⟩

/-- A BYTE command takes ACC16 one byte further (R107), and no other command but INIT writes it. -/
theorem Streaming16.kept {c : Cfg} {final : Half} (i : Instr) (is : List Instr) (s t : State) (hs : Streaming16 c final (i :: is) s)
    (h : exec i s = .next t) : Streaming16 c final is t := by
  obtain ⟨hinit, rfl, acc, hacc, hfinal⟩ := hs
  obtain ⟨hi, his⟩ := not_or.mp (mt List.mem_cons.mpr hinit)
  refine ⟨his, exec_keeps_cfg h, ?acc⟩
  by_cases hbyte : ∃ b, i = .crc16Byte b
  · obtain ⟨b, rfl⟩ := hbyte
    cases (exec_crc16Byte hacc b).symm.trans h
    exact ⟨_, rfl, hfinal⟩
  · rw [streamed16_other (not_exists.mp hbyte)] at hfinal
    exact ⟨acc, (exec_keeps_acc16 h (not_exists.mp hbyte) (Ne.symm hi)).trans hacc, hfinal⟩

/-- Settles O12: from INIT on the accumulator is on the way to the fold over the streamed bytes (`Streaming8.kept`, `Streaming16.kept`),
and READ answers it with the final XOR, which is the CRC of those bytes. -/
theorem streamingEqualsWholeBufferCrc : Obligations.StreamingEqualsWholeBufferCrc := by
  refine fun is s => ⟨fun hinit => ?crc8, fun hinit => ?crc16⟩
  case crc8 =>
    obtain ⟨t, hrun, -, hcfg, acc, hacc, hfinal⟩ := execAll_induction (Streaming8 s.cfg _) Streaming8.kept
      (s := respond .unit { s with acc8 := some s.cfg.crc8Init }) ⟨hinit, rfl, s.cfg.crc8Init, rfl, rfl⟩
    have whole : acc ^^^ t.cfg.crc8Xorout = crc8Of s.cfg (streamed8 is) := by
      rw [hcfg, crc8Of, ← hfinal]
      rfl
    exact ⟨t, _, (execAll_cons rfl is).trans hrun, crc8_length s.cfg rfl, whole ▸ exec_crc8Read hacc⟩
  case crc16 =>
    obtain ⟨t, hrun, -, hcfg, acc, hacc, hfinal⟩ := execAll_induction (Streaming16 s.cfg _) Streaming16.kept
      (s := respond .unit { s with acc16 := some s.cfg.crc16Init }) ⟨hinit, rfl, s.cfg.crc16Init, rfl, rfl⟩
    have whole : acc ^^^ t.cfg.crc16Xorout = crc16Of s.cfg (streamed16 is) := by
      rw [hcfg, crc16Of, ← hfinal]
      rfl
    exact ⟨t, _, (execAll_cons rfl is).trans hrun, crc16_length s.cfg rfl, whole ▸ exec_crc16Read hacc⟩

/-! ## Appending in chunks -/

/-- Settles O23: a capacity that holds both chunks holds the first one, and appending is associative. -/
theorem appendsConcatenate : Obligations.AppendsConcatenate := by
  intro x y s hfits
  have both : withinCapacity s.cfg.rxbufCap ((s.rxbuf ++ x).length + y.length) = true :=
    (withinCapacity_iff _ _).mpr (by simpa using hfits)
  have first : withinCapacity s.cfg.rxbufCap (s.rxbuf.length + x.length) = true :=
    withinCapacity_mono (by simp) both
  have whole : withinCapacity s.cfg.rxbufCap (s.rxbuf.length + (x ++ y).length) = true := by
    simpa [Nat.add_assoc] using both
  refine ⟨_, (execAll_cons (exec_rxAppend first) _).trans (execAll_cons (exec_rxAppend both) []), ?oneAppend, rfl⟩
  case oneAppend =>
    rw [execAll_cons (exec_rxAppend whole), ← List.append_assoc]
    rfl

end Sys2Proof.Machine
end

section
/-! The parser on buffers of a given make-up (43_frame_parser.md R161, R177, R178), and single-bit errors in a header (41_checksum.md
R113), read from what parsing and consuming can answer. -/

namespace Sys2Proof.Machine

/-- Settles O20: the rows of `consume_cases`, each with the one code it stands for. -/
theorem consumeFollowsItsTable : Obligations.ConsumeFollowsItsTable := by
  intro c buf r hr
  obtain ⟨r', k, hr', hk, hle, rows⟩ := consume_cases c buf
  cases hr.symm.trans hr'
  refine ⟨k, hk, hle, ?_⟩
  rcases rows with ⟨hcode, hall⟩ | ⟨hcode, hretain, hstart⟩ | ⟨hcode, hdrop, hall⟩ | ⟨hcode, st, hstart, hnext⟩ |
    ⟨hcode, st, L, hstart, hlen, hframe⟩
  · simp [hcode, hall]
  · simp [hcode, hretain, hstart]
  · simp [hcode, hdrop, hall]
  · rcases hcode with hcode | hcode <;> simp [hcode, hstart, hnext]
  · rcases hcode with hcode | hcode <;> simp [hcode, hstart, hlen, hframe]

/-- Settles O24: the bytes after the first 0xA5 are too few for a header (`parse_short`), and without one there is nothing to start. -/
theorem shortBuffersAreIncompleteOrNoStart : Obligations.ShortBuffersAreIncompleteOrNoStart := by
  refine fun c buf hshort => ⟨fun hmem => ?incomplete, fun hnot => parse_of_no_start c fun b hb => ne_of_mem_of_not_mem hb hnot⟩
  case incomplete =>
    rcases first_start buf with hno | ⟨g, rest, rfl, hg⟩
    · exact absurd rfl (hno _ hmem)
    · have hrest : rest.length < 6 := by
        simp only [List.length_append, List.length_cons] at hshort
        omega
      exact ⟨g.length, parse_behind hg (parse_short c hrest), by simp [Config.startByte]⟩

/-- Settles O25: the garbage shifts the result (`parse_behind`), which `parse` has for every buffer. -/
theorem garbageMovesOnlyTheStart : Obligations.GarbageMovesOnlyTheStart := by
  intro c g f hg
  obtain ⟨r, hr⟩ := parse_isOk c f
  exact ⟨r, hr, parse_behind hg hr⟩

/-! ## Single-bit errors -/

/-- A shift step of RM8 backwards. The bit shifted out is the top bit of the result, since the polynomial 0x8C has it, and
`0x19 = (0x8C <<< 1) + 1` puts back the bit and the polynomial (R109). -/
def rm8Unshift (d : Byte) : Byte := (d <<< 1) ^^^ (if d.getLsbD 7 then 0x19 else 0)

/-- Eight backward steps over a part of the table in order are the indices from its first on. -/
def UnshiftsTo (entries : List Byte) (first : Nat) : Prop :=
  entries.map (Nat.repeat rm8Unshift 8) = (List.range' first entries.length).map (BitVec.ofNat 8)

theorem UnshiftsTo.append {xs ys : List Byte} {m n : Nat} (hx : UnshiftsTo xs m) (hy : UnshiftsTo ys n) (hn : m + xs.length = n) :
    UnshiftsTo (xs ++ ys) m := by
  subst hn
  rw [UnshiftsTo] at hx hy ⊢
  rw [List.map_append, hx, hy, ← List.map_append, List.range'_append_1, List.length_append]

theorem rm8Quarter0_unshifts : UnshiftsTo rm8Quarter0 0 := by unfold UnshiftsTo; rfl
theorem rm8Quarter1_unshifts : UnshiftsTo rm8Quarter1 64 := by unfold UnshiftsTo; rfl
theorem rm8Quarter2_unshifts : UnshiftsTo rm8Quarter2 128 := by unfold UnshiftsTo; rfl
theorem rm8Quarter3_unshifts : UnshiftsTo rm8Quarter3 192 := by unfold UnshiftsTo; rfl

/-- The whole table, a quarter at a time. -/
theorem rm8Table_unshifts : UnshiftsTo rm8Table.toList 0 := by
  rw [rm8Table, Vector.toList_mk]
  refine ((rm8Quarter0_unshifts.append rm8Quarter1_unshifts ?_).append rm8Quarter2_unshifts ?_).append rm8Quarter3_unshifts ?_ <;>
    simp only [List.length_append, rm8Quarter0_length, rm8Quarter1_length, rm8Quarter2_length]

/-- Eight backward steps take each table entry of RM8 to its index. -/
theorem rm8Unshift_tableEntry (i : Byte) : Nat.repeat rm8Unshift 8 (tableEntry8 referenceCfg i) = i := by
  have hentry := congrArg (·[i.toNat]?) rm8Table_unshifts
  have hlookup : rm8Table[i.toNat]? = some (tableEntry8 referenceCfg i) := getElem?_crc8Table referenceCfg i
  simpa [hlookup, List.getElem?_range' i.isLt] using hentry

/-- The RM8 table has no repeated entry, so RM8 meets R113. -/
theorem referenceCfg_headerSensitive : HeaderSensitive referenceCfg :=
  headerSensitive_of_injective fun _ _ h => Function.LeftInverse.injective rm8Unshift_tableEntry h

/-- Settles O14: RM8 is sensitive to every single-bit error of a header. -/
theorem referenceCrc8DetectsSingleBitErrors : Obligations.ReferenceCrc8DetectsSingleBitErrors := fun b0 b1 b2 b3 k hk =>
  referenceCfg_headerSensitive [b0, b1, b2, b3] rfl k hk

/-- A bit behind the first byte is flipped in the rest. -/
theorem flipBit_cons (a : Byte) (data : List Byte) (k : Nat) : flipBit (a :: data) (k + 8) = a :: flipBit data k := by
  simp [flipBit]

/-- A bit of the front part is flipped there. -/
theorem flipBit_append {front : List Byte} {k : Nat} (h : k < 8 * front.length) (rest : List Byte) :
    flipBit (front ++ rest) k = flipBit front k ++ rest := by
  induction front generalizing k with
  | nil => simp at h
  | cons a front ih =>
    by_cases hk : k < 8
    · simp [flipBit, Nat.div_eq_of_lt hk]
    · obtain ⟨j, rfl⟩ := Nat.exists_eq_add_of_le' (Nat.le_of_not_lt hk)
      rw [List.cons_append, flipBit_cons, flipBit_cons, ih (by simp only [List.length_cons] at h; omega), List.cons_append]

/-- A bit of bytes 1 to 3 of a header is flipped: the start byte stays, and the header has its four bytes. -/
theorem flipBit_header (l0 l1 sq : Byte) {k : Nat} (h8 : 8 ≤ k) :
    ∃ l0' l1' sq', flipBit [Config.startByte, l0, l1, sq] k = [Config.startByte, l0', l1', sq'] := by
  obtain ⟨j, rfl⟩ := Nat.exists_eq_add_of_le' h8
  have hlen : (flipBit [l0, l1, sq] j).length = 3 := by simp [flipBit]
  obtain ⟨l0', l1', sq', hflipped⟩ := List.length_eq_three.mp hlen
  exact ⟨l0', l1', sq', by rw [flipBit_cons, hflipped]⟩

/-- A built frame is a header, its CRC-8, and the rest from the command id on (R75). -/
theorem frameOf_eq_header (c : Cfg) (payload : List Byte) (seq c0 c1 : Byte) :
    ∃ l0 l1 tail, frameOf c payload seq c0 c1 =
      [Config.startByte, l0, l1, seq] ++ crc8Of c [Config.startByte, l0, l1, seq] :: c1 :: c0 :: tail :=
  ⟨_, _, _, rfl⟩

/-- With a sensitive CRC-8 the header check of a frame with a flipped header bit fails (R113, R153). -/
theorem parse_flipped_frameOf {c : Cfg} (hsensitive : HeaderSensitive c) (payload : List Byte) (seq c0 c1 : Byte) {k : Nat}
    (h8 : 8 ≤ k) (h32 : k < 32) :
    parse c (flipBit (frameOf c payload seq c0 c1) k) = .ok { code := .headerCrcMismatch, start := some 0 } := by
  obtain ⟨l0, l1, tail, hframe⟩ := frameOf_eq_header c payload seq c0 c1
  obtain ⟨l0', l1', sq', hflipped⟩ := flipBit_header l0 l1 seq h8
  have detected := hsensitive [Config.startByte, l0, l1, seq] rfl k h32
  rw [hflipped, crc8_four, crc8_four] at detected
  rw [hframe, flipBit_append h32, hflipped]
  exact parse_of_header_crc_ne c1 c0 (fun heq => detected (congrArg _ heq)) tail

/-- Settles O15: FEED answers the parse of the flipped frame (`parse_flipped_frameOf`). -/
theorem singleBitHeaderErrorIsRejected : Obligations.SingleBitHeaderErrorIsRejected := by
  intro s payload seq c0 c1 f k hlegal _ hbuild h8 h32
  cases (buildFrame_eq s.cfg payload seq c0 c1).symm.trans hbuild
  exact exec_feed (parse_flipped_frameOf hlegal.sensitive payload seq c0 c1 h8 h32)

end Sys2Proof.Machine
end

section
/-! Runs of RX_PARSE (43_frame_parser.md R173, R176, R178; 70_reset_and_hazards.md R251): frames come out in order, garbage is passed one
0xA5 at a time, the end is reached, and a candidate beyond the capacity waits. -/

namespace Sys2Proof.Machine

/-! ## RX_PARSE on a buffer of a given make-up -/

/-- Garbage without a start byte and then a built frame: the frame comes out, and what follows it stays (R171). -/
theorem exec_rxParse_frame {s : State} {g payload more : List Byte} {seq c0 c1 : Byte} (hg : ∀ b ∈ g, b ≠ Config.startByte)
    (hfits : payload.length ≤ Config.maxPayload) (hbuf : s.rxbuf = g ++ (frameOf s.cfg payload seq c0 c1 ++ more)) :
    exec .rxParse s =
      .next (respond (.parse ((frameResult s.cfg payload seq c0 c1).shift g.length)) { s with rxbuf := more }) := by
  have hparse : parse s.cfg s.rxbuf = .ok ((frameResult s.cfg payload seq c0 c1).shift g.length) := by
    rw [hbuf]
    exact parse_behind hg (parse_frameOf s.cfg hfits seq c0 c1 more)
  have hconsume : consume s.cfg ((frameResult s.cfg payload seq c0 c1).shift g.length) s.rxbuf.length =
      .ok (g.length + 9 + payload.length) := by
    by_cases hknown : le16 c1 c0 ∈ s.cfg.knownCmds
    · rw [frameResult_known hknown]; rfl
    · rw [frameResult_unknown hknown]; rfl
  have hspan : g.length + 9 + payload.length = (g ++ frameOf s.cfg payload seq c0 c1).length := by
    rw [List.length_append, frameOf_length, Nat.add_assoc]
  have hrest : s.rxbuf.drop (g.length + 9 + payload.length) = more := by
    rw [hspan, hbuf, ← List.append_assoc, List.drop_left]
  have hle : g.length + 9 + payload.length ≤ s.rxbuf.length := by
    rw [hspan, hbuf, ← List.append_assoc]
    exact (List.sublist_append_left _ _).length_le
  rw [exec_rxParse hparse hconsume hle, hrest]

/-- The candidate at `i` has a header CRC that is not the CRC of its first four bytes (R153). -/
def FailsHeaderAt (c : Cfg) (buf : List Byte) (i : Nat) : Prop :=
  ∃ v b, crc8 c ((buf.drop i).take 4) 4 = .ok v ∧ buf[i + 4]? = some b ∧ v ≠ b

/-- The check of a candidate looks at nothing before it. -/
theorem failsHeaderAt_append (c : Cfg) (g buf : List Byte) (i : Nat) :
    FailsHeaderAt c (g ++ buf) (g.length + i) ↔ FailsHeaderAt c buf i := by
  simp only [FailsHeaderAt, List.drop_length_add_append, Nat.add_assoc, List.getElem?_append_right,
    Nat.le_add_right, Nat.add_sub_cancel_left]

/-- A whole header that fails its check is answered by HEADER_CRC_MISMATCH, and the scan goes on behind its start byte (R161, R171). -/
theorem exec_rxParse_mismatch {s : State} {g rest : List Byte} (hg : ∀ b ∈ g, b ≠ Config.startByte)
    (hbuf : s.rxbuf = g ++ Config.startByte :: rest) (hlen : 6 ≤ rest.length)
    (hfails : FailsHeaderAt s.cfg (Config.startByte :: rest) 0) :
    exec .rxParse s =
      .next (respond (.parse { code := .headerCrcMismatch, start := some g.length }) { s with rxbuf := rest }) := by
  match rest, hlen with
  | l0 :: l1 :: sq :: hc :: i0 :: i1 :: tail, _ =>
    obtain ⟨v, b, hv, hb, hne⟩ := hfails
    obtain rfl := crc8Of_of_crc8_four (show crc8 s.cfg [Config.startByte, l0, l1, sq] 4 = .ok v from hv)
    obtain rfl : hc = b := Option.some.inj hb
    have hparse : parse s.cfg s.rxbuf = .ok { code := .headerCrcMismatch, start := some g.length } := by
      rw [hbuf]
      exact parse_behind hg (parse_of_header_crc_ne i0 i1 hne tail)
    have hspan : g.length + 1 = (g ++ [Config.startByte]).length := by simp
    have hrest : s.rxbuf.drop (g.length + 1) = l0 :: l1 :: sq :: hc :: i0 :: i1 :: tail := by
      rw [hbuf, List.append_cons, hspan, List.drop_left]
    rw [exec_rxParse hparse (k := g.length + 1) rfl (by simp [hbuf]), hrest]

/-! ## Frames in order (R173) -/

/-- `x` answers the parse of `f` alone. -/
def AnswersParseOf (c : Cfg) (f : List Byte) (x : Response) : Prop := ∃ r, parse c f = .ok r ∧ x = .ok (.parse r)

theorem frames_come_out (fs : List (List Byte)) {tail : List Byte} {s : State}
    (hfs : ∀ f ∈ fs, ∃ payload seq c0 c1, payload.length ≤ Config.maxPayload ∧ buildFrame s.cfg payload seq c0 c1 = .ok f)
    (hbuf : s.rxbuf = fs.flatten ++ tail) :
    ∃ t, execAll (List.replicate fs.length .rxParse) s = .next t ∧ t.rxbuf = tail ∧
      List.Forall₂ (AnswersParseOf s.cfg) fs (responsesOf (List.replicate fs.length .rxParse) s) := by
  induction fs generalizing s with
  | nil => exact ⟨s, rfl, hbuf, .nil⟩
  | cons f fs ih =>
    obtain ⟨⟨payload, seq, c0, c1, hfits, hbuild⟩, hlater⟩ := List.forall_mem_cons.mp hfs
    cases (buildFrame_eq s.cfg payload seq c0 c1).symm.trans hbuild
    have hstep := exec_rxParse_frame (g := []) (List.forall_mem_nil _) hfits (hbuf.trans (List.append_assoc _ _ _))
    have hunmoved : (frameResult s.cfg payload seq c0 c1).shift 0 = frameResult s.cfg payload seq c0 c1 := rfl
    rw [List.length_nil, hunmoved] at hstep
    have halone : parse s.cfg (frameOf s.cfg payload seq c0 c1) = .ok (frameResult s.cfg payload seq c0 c1) := by
      simpa using parse_frameOf s.cfg hfits seq c0 c1 []
    obtain ⟨t, hrun, htail, hanswers⟩ := ih (s := respond (.parse (frameResult s.cfg payload seq c0 c1))
      { s with rxbuf := fs.flatten ++ tail }) hlater rfl
    refine ⟨t, (execAll_cons hstep _).trans hrun, htail, ?_⟩
    rw [List.length_cons, List.replicate_succ, responsesOf_cons hstep (respond_response _ _)]
    exact .cons ⟨_, halone, rfl⟩ hanswers

/-- Settles O27: one RX_PARSE per frame answers the frames in their order (`frames_come_out`). -/
theorem framesComeOutInOrder : Obligations.FramesComeOutInOrder := by
  intro fs tail s hfs hbuf
  obtain ⟨t, hrun, htail, hanswers⟩ := frames_come_out fs hfs hbuf
  refine ⟨t, hrun, htail, hanswers.length_eq.symm, fun j f hf => ?jth⟩
  case jth =>
    obtain ⟨hj, rfl⟩ := List.getElem?_eq_some_iff.mp hf
    have hj' := hanswers.length_eq ▸ hj
    obtain ⟨r, hr, hx⟩ := hanswers.get hj hj'
    exact ⟨r, hr, List.getElem?_eq_some_iff.mpr ⟨hj', hx⟩⟩

/-! ## Garbage whose candidates all fail (R178) -/

/-- The response HEADER_CRC_MISMATCH, at some offset. -/
def IsHeaderMismatch (x : Response) : Prop := ∃ st, x = .ok (.parse { code := .headerCrcMismatch, start := some st })

/-- One RX_PARSE per 0xA5 of the garbage leaves garbage without any, and the frame behind it. -/
theorem garbage_passed {h f : List Byte} {s : State} (hf : 7 ≤ f.length) (hbuf : s.rxbuf = h ++ f)
    (hfails : ∀ i, h[i]? = some Config.startByte → FailsHeaderAt s.cfg (h ++ f) i) :
    ∃ t g, execAll (List.replicate (h.count Config.startByte) .rxParse) s = .next t ∧ t.cfg = s.cfg ∧ t.rxbuf = g ++ f ∧
      (∀ b ∈ g, b ≠ Config.startByte) ∧
      ∀ x ∈ responsesOf (List.replicate (h.count Config.startByte) .rxParse) s, IsHeaderMismatch x := by
  induction hn : h.count Config.startByte generalizing h s with
  | zero => exact ⟨s, h, rfl, rfl, hbuf, fun b hb => ne_of_mem_of_not_mem hb (List.count_eq_zero.mp hn), List.forall_mem_nil _⟩
  | succ n ih =>
    rcases first_start h with hno | ⟨g, rest, rfl, hg⟩
    · rw [List.count_eq_zero.mpr fun hmem => hno _ hmem rfl] at hn
      cases hn
    have hcount : rest.count Config.startByte = n := by
      rw [List.count_append, List.count_eq_zero.mpr fun hmem => hg _ hmem rfl, List.count_cons_self] at hn
      omega
    have hsplit : g ++ Config.startByte :: rest ++ f = g ++ Config.startByte :: (rest ++ f) := by simp
    rw [hsplit] at hbuf hfails
    have hfirst : FailsHeaderAt s.cfg (Config.startByte :: (rest ++ f)) 0 :=
      (failsHeaderAt_append s.cfg g _ 0).mp (hfails _ (by simp))
    have hlater (i : Nat) (hi : rest[i]? = some Config.startByte) : FailsHeaderAt s.cfg (rest ++ f) i := by
      have hcandidate : (g ++ Config.startByte :: rest)[g.length + (i + 1)]? = some Config.startByte := by
        rw [List.getElem?_append_right (Nat.le_add_right _ _), Nat.add_sub_cancel_left]
        exact hi
      have hbehind := (failsHeaderAt_append s.cfg g _ _).mp (hfails _ hcandidate)
      rw [Nat.add_comm] at hbehind
      exact (failsHeaderAt_append s.cfg [Config.startByte] _ i).mp hbehind
    have hstep := exec_rxParse_mismatch hg hbuf (by simp only [List.length_append]; omega) hfirst
    obtain ⟨t, g', hrun, hcfg, hrest, hg', hanswers⟩ := ih (s := respond _ { s with rxbuf := rest ++ f }) rfl hlater hcount
    refine ⟨t, g', (execAll_cons hstep _).trans hrun, hcfg, hrest, hg', ?_⟩
    rw [List.replicate_succ, responsesOf_cons hstep (respond_response _ _)]
    exact List.forall_mem_cons.mpr ⟨⟨_, rfl⟩, hanswers⟩

/-- Settles O28: the garbage is passed (`garbage_passed`), and then the frame comes out behind what is left of it. -/
theorem receivePathFindsFrameBehindGarbage : Obligations.ReceivePathFindsFrameBehindGarbage := by
  intro s h f payload seq c0 c1 cmd hfits hbuild hcmd hknown hbuf hfails
  cases (buildFrame_eq s.cfg payload seq c0 c1).symm.trans hbuild
  obtain rfl := cmd_eq_le16 hcmd
  obtain ⟨t, g, hrun, hcfg, hrest, hg, hanswers⟩ := garbage_passed (by rw [frameOf_length]; omega) hbuf hfails
  have hframe := exec_rxParse_frame (s := t) (more := []) hg hfits (by rw [hrest, hcfg, List.append_nil])
  rw [hcfg, frameResult_known hknown] at hframe
  have hlast := (execAll_append hrun [.rxParse]).trans (execAll_cons hframe [])
  rw [← List.replicate_succ'] at hlast
  exact ⟨hanswers, (responsesOf_length _ s).trans List.length_replicate, _, g.length, hlast, rfl, rfl⟩

/-! ## Progress (R176) -/

/-- A result that ends a run of RX_PARSE: nothing more comes out of the buffer. -/
def ParseResult.Final (r : ParseResult) : Prop := r.code = .incomplete ∨ r.code = .noStartByte

/-- RX_PARSE answers a final result, or removes at least one byte. -/
theorem rxParse_final_or_shortens (s : State) :
    ∃ r buf, exec .rxParse s = .next (respond (.parse r) { s with rxbuf := buf }) ∧ (r.Final ∨ buf.length < s.rxbuf.length) := by
  obtain ⟨r, k, hr, hk, hle, rows⟩ := consume_cases s.cfg s.rxbuf
  refine ⟨r, s.rxbuf.drop k, exec_rxParse hr hk hle, ?_⟩
  have shortens (hpos : 0 < k) : (s.rxbuf.drop k).length < s.rxbuf.length := by
    rw [List.length_drop]
    omega
  rcases rows with ⟨hcode, -⟩ | ⟨hcode, -⟩ | ⟨hcode, -⟩ | ⟨-, st, -, rfl⟩ | ⟨-, st, L, -, -, rfl⟩
  · exact .inl (.inr hcode)
  · exact .inl (.inl hcode)
  · exact .inl (.inl hcode)
  · exact .inr (shortens (by omega))
  · exact .inr (shortens (by omega))

/-- Settles O29: by induction on the length of RXBUF, since RX_PARSE ends or shortens it (`rxParse_final_or_shortens`). -/
theorem repeatedRxParseReachesTheEnd : Obligations.RepeatedRxParseReachesTheEnd := by
  intro s
  induction hlen : s.rxbuf.length using Nat.strong_induction_on generalizing s with
  | _ len ih =>
    subst hlen
    obtain ⟨r, buf, hexec, hfinal | hshorter⟩ := rxParse_final_or_shortens s
    · exact ⟨0, _, r, Nat.zero_le _, execAll_cons hexec [], rfl, hfinal⟩
    · obtain ⟨n, t, r', hn, hrun, hanswer, hfinal⟩ := ih _ hshorter (respond (.parse r) { s with rxbuf := buf }) rfl
      exact ⟨n + 1, t, r', Nat.lt_of_le_of_lt hn hshorter, (execAll_cons hexec _).trans hrun, hanswer, hfinal⟩

/-! ## A candidate beyond the capacity (R251) -/

/-- The result of a candidate at the front that passed its header check and waits for its `L` bytes (R154). -/
def waiting (L : Nat) : ParseResult := { code := .incomplete, start := some 0, len := some L }

/-- Appended bytes that do not complete the candidate leave the result as it was. -/
theorem parse_append_waiting {c : Cfg} {buf : List Byte} {L : Nat} (h : parse c buf = .ok (waiting L)) {chunk : List Byte}
    (hshort : (buf ++ chunk).length < 9 + L) : parse c (buf ++ chunk) = .ok (waiting L) := by
  rcases parse_cases c buf with ⟨-, hno⟩ | ⟨g, rest, rfl, -, hrest⟩
  · cases hno.symm.trans h
  rcases hrest with ⟨-, hheader⟩ | ⟨l0, l1, sq, hc, i0, i1, tail, rfl, hbody⟩
  · exact absurd (hheader.symm.trans h) (by simp [waiting])
  rcases hbody with ⟨-, hmismatch⟩ | ⟨hpass, -, hwait⟩ | ⟨-, p, k0, k1, more, -, -, hwhole⟩
  · exact absurd (hmismatch.symm.trans h) (by simp [waiting])
  · have hr := Except.ok.inj (hwait.symm.trans h)
    obtain rfl : g = [] := List.eq_nil_of_length_eq_zero (Option.some.inj (congrArg ParseResult.start hr))
    obtain rfl : (le16 l0 l1).toNat = L := Option.some.inj (congrArg ParseResult.len hr)
    rw [le16_toNat] at hshort ⊢
    exact parse_of_body_absent i0 i1 hpass (tail := tail ++ chunk)
      (by simp only [List.length_append, List.length_cons, List.length_nil] at hshort ⊢; omega)
  · rcases hwhole with ⟨-, hunknown⟩ | ⟨-, -, hmismatch⟩ | ⟨-, -, hframe⟩
    · exact absurd (hunknown.symm.trans h) (by simp [waiting])
    · exact absurd (hmismatch.symm.trans h) (by simp [waiting])
    · exact absurd (hframe.symm.trans h) (by simp [waiting])

/-- Under Retain, RX_PARSE keeps a waiting candidate (R161). -/
theorem exec_rxParse_waiting {s : State} {L : Nat} (hretain : s.cfg.incompletePolicy = .retain)
    (h : parse s.cfg s.rxbuf = .ok (waiting L)) : exec .rxParse s = .next (respond (.parse (waiting L)) s) :=
  exec_rxParse h (k := 0) (by simp [consume, waiting, hretain]) (Nat.zero_le _)

/-- A candidate waits at the front of RXBUF that no appending within the capacity completes, and no RX_CLEAR is to come. -/
def Stalled (L cap : Nat) (is : List Instr) (s : State) : Prop :=
  s.cfg.incompletePolicy = .retain ∧ s.cfg.rxbufCap = .bytes cap ∧ .rxClear ∉ is ∧ parse s.cfg s.rxbuf = .ok (waiting L)

/-- Every command but RX_CLEAR leaves the candidate waiting: RX_PARSE keeps it, and RX_APPEND appends too little. -/
theorem Stalled.kept {L cap : Nat} (hcap : cap < 9 + L) (i : Instr) (is : List Instr) (s t : State) (hs : Stalled L cap (i :: is) s)
    (h : exec i s = .next t) : Stalled L cap is t := by
  obtain ⟨hretain, hcapacity, hclear, hwaits⟩ := hs
  obtain ⟨hi, his⟩ := not_or.mp (mt List.mem_cons.mpr hclear)
  have hcfg := exec_keeps_cfg h
  refine ⟨hcfg ▸ hretain, hcfg ▸ hcapacity, his, hcfg ▸ ?waits⟩
  case waits =>
    rcases exec_next h with ⟨k, -, rfl⟩ | ⟨-, -, w⟩
    · exact hwaits
    rcases w.rxbuf with hkept | ⟨chunk, -, happend, hfits⟩ | ⟨rfl, -⟩ | ⟨rfl, -⟩
    · exact hkept ▸ hwaits
    · rw [happend] at hfits ⊢
      exact parse_append_waiting hwaits (Nat.lt_of_le_of_lt ((withinCapacity_iff _ _).mp hfits cap hcapacity) hcap)
    · cases (exec_rxParse_waiting hretain hwaits).symm.trans h
      exact hwaits
    · exact absurd rfl hi

/-- Settles O30: the candidate is still waiting after the commands (`Stalled.kept`), so RX_PARSE answers the same and keeps it. -/
theorem stalledCandidateNeverCompletes : Obligations.StalledCandidateNeverCompletes := by
  intro s l cap is hretain hcapacity hcap hwaits hclear
  have hstalled : Stalled l cap is s := ⟨hretain, hcapacity, hclear, hwaits⟩
  obtain ⟨t, hrun, hretain', -, -, hwaits'⟩ := execAll_induction (Stalled l cap) (Stalled.kept hcap) hstalled
  exact ⟨t, hrun, exec_rxParse_waiting hretain' hwaits'⟩

end Sys2Proof.Machine
end
